-- ==== Sys2Proof/Word.lean ====
section
/-! DEFINITION. The wire word of the command channel: 32 bits (00_scope.md R6, 30_encoding.md R70). -/

namespace Sys2Proof

/-- `Word32`: every queue element, header word, chunk and payload word (R6, R70). -/
abbrev Word32 := BitVec 32

/-- A host byte, used only by the optional byte packing of 20_memory.md R54 (D16). -/
abbrev Byte := BitVec 8

/-- `WORD_BYTES` (R6). -/
def wordBytes : Nat := 4

/-- The number of values of one word: the base in which chunks are the digits of a value (R11). -/
def wordBase : Nat := 2 ^ 32

end Sys2Proof
end

