-- ==== Sys2Proof/Config.lean ====
section
/-! DEFINITION. The parameters of a run (00_scope.md R7) and the free values: constants without a body
that stand for what the spec leaves open (the control addresses, D17; the draws of a target turn, R8, R169). -/

namespace Sys2Proof

/-- `START_ADDR` at the default width `A = 2`. OPEN (D17): no value, so no proof can lean on one (log 3). -/
opaque Config.startAddr : BitVec 64

/-- `RESET_ADDR_FIRST` at the default width. OPEN (D17, log 3). -/
opaque Config.resetFirst : BitVec 64

/-- `RESET_ADDR_SECOND` at the default width. OPEN (D17, log 3). -/
opaque Config.resetSecond : BitVec 64

/-- The draw `out_ready` of target turn number `t`: free, under no law (R8, R169, log 5). -/
opaque Config.freeOutReady : Nat → Bool

/-- The draw `in_valid` of target turn number `t`: free (R8, R169, log 5). -/
opaque Config.freeInValid : Nat → Bool

/-- The draw `in_bits` of target turn number `t`: free (R8, R169, log 5). -/
opaque Config.freeInBits : Nat → Word32

/-- The configuration parameters of R7, fixed for a run. `State` carries one, so that a claim about every
state quantifies over every parameter. `prog` is a field of `State` of its own. -/
structure Params where
  /-- `OPCODE_READ` (D1). -/
  opRead : Word32
  /-- `OPCODE_WRITE`; must differ from `OPCODE_READ` (D2). -/
  opWrite : Word32
  /-- `ADDR_CHUNKS`, `A ≥ 1` (D3). -/
  addrChunks : Nat
  /-- `LEN_CHUNKS`, `L ≥ 1` (D4). -/
  lenChunks : Nat
  /-- `START_ADDR`, a `32·A`-bit value (D17). -/
  startAddr : Nat
  /-- `RESET_ADDR_FIRST`, a `32·A`-bit value (D17). -/
  resetFirst : Nat
  /-- `RESET_ADDR_SECOND`, a `32·A`-bit value (D17). -/
  resetSecond : Nat
  /-- `QUEUE_DEPTH`: `none` is unbounded, the default (D7). A finite depth is read as I7 says (log 4). -/
  queueDepth : Option Nat
  deriving DecidableEq, Repr

/-- `2^(32·A)`: addresses lie below it (R51, R71). -/
def Params.addrBound (c : Params) : Nat := 2 ^ (32 * c.addrChunks)

/-- `2^(32·L)`: the length field `n − 1` lies below it (R76, R77). -/
def Params.lenBound (c : Params) : Nat := 2 ^ (32 * c.lenChunks)

/-- The number of words before a WRITE's payload: header, address, length (R72, R73). -/
def Params.headWords (c : Params) : Nat := 1 + c.addrChunks + c.lenChunks

/-- What R7 requires of the parameters: distinct opcodes, `A ≥ 1`, `L ≥ 1`, control addresses of `32·A` bits. -/
def Params.wf (c : Params) : Bool :=
  c.opRead != c.opWrite && decide (1 ≤ c.addrChunks) && decide (1 ≤ c.lenChunks) &&
  decide (c.startAddr < c.addrBound) && decide (c.resetFirst < c.addrBound) &&
  decide (c.resetSecond < c.addrBound)

/-- The defaults of R7. PRESUMED: the spec takes both opcodes, `A` and `L` from general knowledge of the
fesvr serial adapter (G1 to G3, log 2). -/
def Params.default : Params :=
  { opRead := 0, opWrite := 1, addrChunks := 2, lenChunks := 2,
    startAddr := Config.startAddr.toNat, resetFirst := Config.resetFirst.toNat,
    resetSecond := Config.resetSecond.toNat, queueDepth := none }

end Sys2Proof
end

