-- ==== Sys2Proof/Syntax.lean ====
section
/-! DEFINITION. The instructions: one constructor per row of spec/opcode_table.json, in the table's order. -/

namespace Sys2Proof

/-- The rows of the opcode table. An address or a byte count of a host operation is any natural number: the
checks run when the operation executes (30_encoding.md R85). -/
inductive Instr where
  /-- READ, the wire command `Read(addr, n)`, `n` words (R71, R72). -/
  | wireRead (addr n : Nat)
  /-- WRITE, the wire command `Write(addr, n, payload)` (R71, R73). -/
  | wireWrite (addr n : Nat) (payload : List Word32)
  /-- READ_RESPONSE, the `n` unframed data words that answer a READ (R81). -/
  | readResponse (words : List Word32)
  /-- RESERVED_HEADER, a header word that is neither opcode (R82). -/
  | reservedHeader (w : Word32)
  /-- `read_req ADDR, BYTES` (R101). -/
  | readReq (addr bytes : Nat)
  /-- `write ADDR, BYTES, [W0, ...]` (R106). -/
  | write (addr bytes : Nat) (payload : List Word32)
  /-- `write_chunk ADDR, BYTES, [W0, ...]`, a synonym of `write` (R88). -/
  | writeChunk (addr bytes : Nat) (payload : List Word32)
  /-- `read_resp BYTES -> bK`; `buf` is `K` (R122). -/
  | readResp (bytes buf : Nat)
  /-- `read ADDR, BYTES -> bK`, the pseudo-operation (R87, R128). -/
  | read (addr bytes buf : Nat)
  /-- `start_program` (R140). -/
  | startProgram
  /-- `reset`, of the target (R143). -/
  | reset
  /-- `yield` (R184). -/
  | yield
  /-- `offer_outbound_word` (R161). -/
  | offerOutboundWord
  /-- `accept_inbound_word(w)` (R162). -/
  | acceptInboundWord (w : Word32)
  /-- `channel_step(out_ready, in_valid, in_bits)` (R166). -/
  | channelStep (outReady inValid : Bool) (inBits : Word32)
  /-- `target_turn`, with the draws of its channel step (R185). -/
  | targetTurn (outReady inValid : Bool) (inBits : Word32)
  /-- `idle`: a host step while the program is finished (R186). -/
  | idle
  deriving DecidableEq, Repr

end Sys2Proof
end

