-- ==== Sys2Proof/WellFormed.lean ====
section
/-! DEFINITION. Which instructions are well formed: the operand checks of the wire forms (R71, R81, R82), and
which instructions a line of a host program may hold (R84, R87, R88). -/

namespace Sys2Proof

/-- Well-formedness under the parameters `c`. The operands of a host operation are unrestricted: R85 says they
are no parse error and are checked at execution. -/
def Instr.wf (c : Params) : Instr → Bool
  | .wireRead a n => decide (a < c.addrBound) && decide (1 ≤ n) && decide (n ≤ c.lenBound)
  | .wireWrite a n p =>
    decide (a < c.addrBound) && decide (1 ≤ n) && decide (n ≤ c.lenBound) && decide (p.length = n)
  | .readResponse ws => decide (1 ≤ ws.length) && decide (ws.length ≤ c.lenBound)
  | .reservedHeader w => w != c.opRead && w != c.opWrite
  | .readReq _ _ => true
  | .write _ _ _ => true
  | .writeChunk _ _ _ => true
  | .readResp _ _ => true
  | .read _ _ _ => true
  | .startProgram => true
  | .reset => true
  | .yield => true
  | .offerOutboundWord => true
  | .acceptInboundWord _ => true
  | .channelStep _ _ _ => true
  | .targetTurn _ _ _ => true
  | .idle => true

/-- The forms R84 allows on a line of a host program, with the pseudo-operations of R87 and R88. -/
def Instr.isHostLine : Instr → Bool
  | .wireRead _ _ => false
  | .wireWrite _ _ _ => false
  | .readResponse _ => false
  | .reservedHeader _ => false
  | .readReq _ _ => true
  | .write _ _ _ => true
  | .writeChunk _ _ _ => true
  | .readResp _ _ => true
  | .read _ _ _ => true
  | .startProgram => true
  | .reset => true
  | .yield => true
  | .offerOutboundWord => false
  | .acceptInboundWord _ => false
  | .channelStep _ _ _ => false
  | .targetTurn _ _ _ => false
  | .idle => false

/-- A host program holds host operations only: a line of any other form is refused by the parser (R84, R182). -/
def programWf (prog : List Instr) : Bool := prog.all Instr.isHostLine

end Sys2Proof
end

