-- ==== Sys2Proof/Decode.lean ====
section
/-! DEFINITION. The two readings of an instruction and the words it is written as. Wire commands: chunks (R11),
the decoder of a word stream (R72 to R77, R80) and, after it, the encoder (R79). Host operations have no binary
form (R89): their encoding is the text of R84 to R88, read by `parseLine` and `parseProgram`. -/

namespace Sys2Proof

/-- Why a stream of words or a line of text is turned away. -/
inductive Reject where
  /-- the stream has no header word -/
  | noHeader
  /-- the stream ends inside the `A` address words -/
  | addressCut
  /-- the stream ends inside the `L` length words -/
  | lengthCut
  /-- the stream ends inside the payload of a WRITE, or inside a response -/
  | payloadCut
  /-- a character that no form of R84 to R86 holds -/
  | strayCharacter
  /-- a literal that R85 does not read -/
  | badLiteral
  /-- a payload word at or above `2^32` (R85) -/
  | wideWord
  /-- a line of no form of R84, R87 or R88 (R182) -/
  | badLine
  deriving DecidableEq, Repr

/-! ## Chunks (R11, R53) -/

/-- `chunks_K(v)`: the `K` words of `v`, least-significant chunk first (R11). -/
def chunks : Nat → Nat → List Word32
  | 0, _ => []
  | k + 1, v => BitVec.ofNat 32 v :: chunks k (v / wordBase)

/-- `unchunk`, the value whose chunks are given (R11, R75). -/
def unchunk : List Word32 → Nat
  | [] => 0
  | w :: ws => w.toNat + wordBase * unchunk ws

/-! ## The decoder of a word stream (R80) -/

/-- The first `k` words of a stream and what follows them; `none` if there are fewer. -/
def splitWords : List Word32 → Nat → Option (List Word32 × List Word32)
  | ws, 0 => some ([], ws)
  | [], _ + 1 => none
  | w :: ws, k + 1 =>
    match splitWords ws k with
    | some (front, rest) => some (w :: front, rest)
    | none => none

/-- The address and the word count `n = len_field + 1` after a header, and the rest of the stream (R75 to R77). -/
def decodeHead (c : Params) (ws : List Word32) : Except Reject (Nat × Nat × List Word32) :=
  match splitWords ws c.addrChunks with
  | none => .error .addressCut
  | some (aw, ws1) =>
    match splitWords ws1 c.lenChunks with
    | none => .error .lengthCut
    | some (lw, ws2) => .ok (unchunk aw, unchunk lw + 1, ws2)

/-- The instruction at the front of a stream of wire words and the rest of the stream. A header that is neither
opcode is RESERVED_HEADER, one word long (R74, R80, R82). -/
def decode (c : Params) : List Word32 → Except Reject (Instr × List Word32)
  | [] => .error .noHeader
  | h :: ws =>
    if h = c.opRead then
      match decodeHead c ws with
      | .error e => .error e
      | .ok (a, n, rest) => .ok (.wireRead a n, rest)
    else if h = c.opWrite then
      match decodeHead c ws with
      | .error e => .error e
      | .ok (a, n, rest) =>
        match splitWords rest n with
        | none => .error .payloadCut
        | some (p, rest') => .ok (.wireWrite a n p, rest')
    else .ok (.reservedHeader h, ws)

/-- A response has no framing: only a receiver that knows the count `n` can read it (R81, R120). -/
def decodeResponse (n : Nat) (ws : List Word32) : Except Reject (Instr × List Word32) :=
  match splitWords ws n with
  | none => .error .payloadCut
  | some (p, rest) => .ok (.readResponse p, rest)

/-! ## The encoder (R79) -/

/-- `enc(Read(a, n))` (R72, R79). -/
def encRead (c : Params) (a n : Nat) : List Word32 :=
  c.opRead :: (chunks c.addrChunks a ++ chunks c.lenChunks (n - 1))

/-- `enc(Write(a, n, p))` (R73, R79). -/
def encWrite (c : Params) (a n : Nat) (p : List Word32) : List Word32 :=
  c.opWrite :: (chunks c.addrChunks a ++ chunks c.lenChunks (n - 1) ++ p)

/-- The wire words of an instruction. A host operation and an interface operation have none (R89). -/
def encode (c : Params) : Instr → List Word32
  | .wireRead a n => encRead c a n
  | .wireWrite a n p => encWrite c a n p
  | .readResponse ws => ws
  | .reservedHeader w => [w]
  | .readReq _ _ => []
  | .write _ _ _ => []
  | .writeChunk _ _ _ => []
  | .readResp _ _ => []
  | .read _ _ _ => []
  | .startProgram => []
  | .reset => []
  | .yield => []
  | .offerOutboundWord => []
  | .acceptInboundWord _ => []
  | .channelStep _ _ _ => []
  | .targetTurn _ _ _ => []
  | .idle => []

/-- The rows whose wire form starts with a header word, so that a stream tells where they end (R80, R82). -/
def Instr.hasHeader : Instr → Bool
  | .wireRead _ _ => true
  | .wireWrite _ _ _ => true
  | .readResponse _ => false
  | .reservedHeader _ => true
  | .readReq _ _ => false
  | .write _ _ _ => false
  | .writeChunk _ _ _ => false
  | .readResp _ _ => false
  | .read _ _ _ => false
  | .startProgram => false
  | .reset => false
  | .yield => false
  | .offerOutboundWord => false
  | .acceptInboundWord _ => false
  | .channelStep _ _ _ => false
  | .targetTurn _ _ _ => false
  | .idle => false

/-! ## The opcode table's own numbering of bits -/

/-- The words of an instruction whose low `nbits` bits are `w`, with every bit above them zero, as far as the
instruction they begin with is long: `n` of a WRITE is read from its own length field (log 26). -/
def tableWords (c : Params) (nbits w : Nat) : List Word32 :=
  let given := chunks ((nbits + 31) / 32) (w % 2 ^ nbits)
  let head := given ++ List.replicate c.headWords 0
  let n := unchunk ((head.drop (1 + c.addrChunks)).take c.lenChunks) + 1
  head ++ List.replicate n 0

/-- The instruction the decoder reads from the words `tableWords` lays out. -/
def decodeTableWordAt (c : Params) (nbits w : Nat) : Option Instr :=
  match decode c (tableWords c nbits w) with
  | .ok (i, _) => some i
  | .error _ => none

/-- The instruction of an opcode-table row's bits, under the default parameters (R7). -/
def decodeTableWord (nbits w : Nat) : Option Instr := decodeTableWordAt Params.default nbits w

/-! ## The pseudo-operation `read` (R87) -/

/-- The lines a line of a host program stands for: `read` is two, every other form is itself (R87). -/
def expandLine : Instr → List Instr
  | .read a b k => [.readReq a b, .readResp b k]
  | .wireRead a n => [.wireRead a n]
  | .wireWrite a n p => [.wireWrite a n p]
  | .readResponse ws => [.readResponse ws]
  | .reservedHeader w => [.reservedHeader w]
  | .readReq a b => [.readReq a b]
  | .write a b p => [.write a b p]
  | .writeChunk a b p => [.writeChunk a b p]
  | .readResp b k => [.readResp b k]
  | .startProgram => [.startProgram]
  | .reset => [.reset]
  | .yield => [.yield]
  | .offerOutboundWord => [.offerOutboundWord]
  | .acceptInboundWord w => [.acceptInboundWord w]
  | .channelStep r v w => [.channelStep r v w]
  | .targetTurn r v w => [.targetTurn r v w]
  | .idle => [.idle]

/-! ## Host-operation text (R84 to R88) -/

/-- The parts of a line of text. -/
inductive Token where
  | word (cs : List Char)
  | comma
  | lbracket
  | rbracket
  | arrow
  deriving DecidableEq, Repr

/-- Close the word read so far (its characters in reverse) before the tokens that follow it. -/
def flushWord (acc : List Char) (ts : List Token) : List Token :=
  if acc.isEmpty then ts else .word acc.reverse :: ts

/-- The tokens of one line. A comment runs from `;` to the end of the line (R86). DESIGN CHOICE
(log 16): spaces are free around and between the parts, and none is needed beside `,`, `[`, `]` or `->`. -/
def tokens : List Char → List Char → Except Reject (List Token)
  | [], acc => .ok (flushWord acc [])
  | ';' :: _, acc => .ok (flushWord acc [])
  | '-' :: '>' :: r, acc => (tokens r []).map fun ts => flushWord acc (.arrow :: ts)
  | ',' :: r, acc => (tokens r []).map fun ts => flushWord acc (.comma :: ts)
  | '[' :: r, acc => (tokens r []).map fun ts => flushWord acc (.lbracket :: ts)
  | ']' :: r, acc => (tokens r []).map fun ts => flushWord acc (.rbracket :: ts)
  | x :: r, acc =>
    if x = ' ' || x = '\t' || x = '\r' then (tokens r []).map (flushWord acc)
    else if x.isAlphanum || x = '_' then tokens r (x :: acc)
    else .error .strayCharacter

/-- The value of a digit in a base of 10 or 16 (R85). Hexadecimal digits may be of either case (log 16). -/
def digitVal (base : Nat) (x : Char) : Option Nat :=
  let v :=
    if x.isDigit then x.toNat - 48
    else if 'a' ≤ x ∧ x ≤ 'f' then x.toNat - 87
    else if 'A' ≤ x ∧ x ≤ 'F' then x.toNat - 55
    else base
  if v < base then some v else none

/-- The value of the digits after `acc`; an underscore may stand between two digits (R85). -/
def digits (base : Nat) : Nat → List Char → Option Nat
  | acc, [] => some acc
  | acc, '_' :: x :: r =>
    match digitVal base x with
    | some d => digits base (acc * base + d) r
    | none => none
  | acc, x :: r =>
    match digitVal base x with
    | some d => digits base (acc * base + d) r
    | none => none

/-- A literal: decimal, or hexadecimal after `0x` (R85). -/
def literal : List Char → Except Reject Nat
  | '0' :: 'x' :: x :: r =>
    match digitVal 16 x with
    | none => .error .badLiteral
    | some d => match digits 16 d r with
      | some v => .ok v
      | none => .error .badLiteral
  | x :: r =>
    match digitVal 10 x with
    | none => .error .badLiteral
    | some d => match digits 10 d r with
      | some v => .ok v
      | none => .error .badLiteral
  | [] => .error .badLiteral

/-- A buffer name: `b` and a decimal number (R85). -/
def bufferName : List Char → Except Reject Nat
  | 'b' :: x :: r => if (x :: r).all Char.isDigit then literal (x :: r) else .error .badLiteral
  | _ => .error .badLiteral

/-- A payload word: a literal below `2^32`; a larger one is refused (R85). -/
def payloadWord (cs : List Char) : Except Reject Word32 :=
  match literal cs with
  | .error e => .error e
  | .ok v => if v < wordBase then .ok (BitVec.ofNat 32 v) else .error .wideWord

/-- The words of a payload up to its closing bracket, which ends the line. -/
def payloadItems : List Token → Except Reject (List Word32)
  | [.word w, .rbracket] => (payloadWord w).map fun x => [x]
  | .word w :: .comma :: r =>
    match payloadWord w with
    | .error e => .error e
    | .ok x => (payloadItems r).map fun xs => x :: xs
  | _ => .error .badLine

/-- `[W0, W1, ...]` after its opening bracket; the empty payload is `[]` (R84). -/
def payloadList : List Token → Except Reject (List Word32)
  | [.rbracket] => .ok []
  | ts => payloadItems ts

/-- The operation a line's tokens spell (R84, R87, R88). -/
def parseTokens : List Token → Except Reject Instr
  | [.word op] =>
    if op = "start_program".toList then .ok .startProgram
    else if op = "reset".toList then .ok .reset
    else if op = "yield".toList then .ok .yield
    else .error .badLine
  | [.word op, .word a, .comma, .word b] =>
    if op = "read_req".toList then do .ok (.readReq (← literal a) (← literal b)) else .error .badLine
  | [.word op, .word b, .arrow, .word k] =>
    if op = "read_resp".toList then do .ok (.readResp (← literal b) (← bufferName k)) else .error .badLine
  | [.word op, .word a, .comma, .word b, .arrow, .word k] =>
    if op = "read".toList then do .ok (.read (← literal a) (← literal b) (← bufferName k)) else .error .badLine
  | .word op :: .word a :: .comma :: .word b :: .comma :: .lbracket :: r =>
    if op = "write".toList then do .ok (.write (← literal a) (← literal b) (← payloadList r))
    else if op = "write_chunk".toList then do .ok (.writeChunk (← literal a) (← literal b) (← payloadList r))
    else .error .badLine
  | _ => .error .badLine

/-- One line of a host program; `none` is a blank or comment line (R84, R86). -/
def parseLine (cs : List Char) : Except Reject (Option Instr) :=
  match tokens cs [] with
  | .error e => .error e
  | .ok [] => .ok none
  | .ok ts => (parseTokens ts).map some

/-- The lines of a text. -/
def textLines : List Char → List (List Char)
  | [] => [[]]
  | '\n' :: r => [] :: textLines r
  | x :: r =>
    match textLines r with
    | [] => [[x]]
    | l :: ls => (x :: l) :: ls

/-- The operations of a list of lines, in order. -/
def parseLines : List (List Char) → Except Reject (List Instr)
  | [] => .ok []
  | l :: ls =>
    match parseLine l with
    | .error e => .error e
    | .ok none => parseLines ls
    | .ok (some i) => (parseLines ls).map fun is => i :: is

/-- A host program from its text: one operation a line (R84, R86). -/
def parseProgram (cs : List Char) : Except Reject (List Instr) := parseLines (textLines cs)

/-! ## The optional byte interface (R54, D16) -/

/-- Host bytes packed into payload words, little-endian: byte `4k+j` is bits `[8j+7:8j]` of word `k` (R54).
PRESUMED (D16, G5, log 17). `none` when the bytes are no whole number of words. -/
def packBytes : List Byte → Option (List Word32)
  | [] => some []
  | b0 :: b1 :: b2 :: b3 :: r =>
    match packBytes r with
    | some ws => some ((b3 ++ b2 ++ b1 ++ b0) :: ws)
    | none => none
  | _ => none

/-- The host bytes of payload words, in the order of `packBytes`. -/
def unpackBytes : List Word32 → List Byte
  | [] => []
  | w :: ws =>
    w.extractLsb' 0 8 :: w.extractLsb' 8 8 :: w.extractLsb' 16 8 :: w.extractLsb' 24 8 :: unpackBytes ws

end Sys2Proof
end

