-- ==== Sys2Proof/Machine/State.lean ====
section
/-! DEFINITION. The state: the record of 10_state.md R20, the run's parameters and program (00_scope.md R7), and
the reference target's own record (45_reference_target.md R245). -/

namespace Sys2Proof.Machine

/-- The scheduler's two states (R24, R180). -/
inductive Ctx where
  /-- "Host-Running" -/
  | host
  /-- "Target-Running" -/
  | target
  deriving DecidableEq, Repr

/-- The fault codes, in the order of R200. -/
inductive FaultCode where
  /-- code 1 (R201) -/
  | addressRange
  /-- code 2 (R202) -/
  | badByteCount
  /-- code 3 (R203) -/
  | zeroLength
  /-- code 4 (R204) -/
  | lengthOverflow
  /-- code 5 (R205) -/
  | payloadMismatch
  /-- code 6 (R206) -/
  | readOverlap
  /-- code 7 (R207) -/
  | readMismatch
  /-- code 8, the reference parser's only (R208) -/
  | illegalCommand
  deriving DecidableEq, Repr

/-- The number of a fault code (R200). -/
def FaultCode.number : FaultCode → Nat
  | .addressRange => 1
  | .badByteCount => 2
  | .zeroLength => 3
  | .lengthOverflow => 4
  | .payloadMismatch => 5
  | .readOverlap => 6
  | .readMismatch => 7
  | .illegalCommand => 8

/-- The channel's three inputs in one channel step (R33). -/
structure Draw where
  outReady : Bool
  inValid : Bool
  inBits : Word32
  deriving DecidableEq, Repr

/-- A command, the tagged value of R71. -/
inductive Command where
  | read (addr n : Nat)
  | write (addr n : Nat) (payload : List Word32)
  deriving DecidableEq, Repr

/-- Which command a header selected: the parser's `R` and `W` (R241, R242). -/
inductive CommandKind where
  | read
  | write
  deriving DecidableEq, Repr

/-- The stream parser's phase (R241). -/
inductive Phase where
  /-- a header is expected -/
  | hdr
  /-- `k` address chunks are read, of value `acc` -/
  | addr (kind : CommandKind) (k acc : Nat)
  /-- `k` length chunks are read, of value `acc` -/
  | len (kind : CommandKind) (a k acc : Nat)
  /-- the `k` payload words `ws` of a WRITE are read -/
  | pay (a n k : Nat) (ws : List Word32)
  deriving DecidableEq, Repr

/-- The reference target's memory: the words at the addresses written, addresses strictly rising, none zero.
It is keyed by address and holds words, because R245 says so ("does not model bytes"; log 13). -/
abbrev Memory := List (Nat × Word32)

/-- The reference echo-memory target (R245). -/
structure RefTarget where
  mem : Memory
  phase : Phase
  tx : List Word32
  tfault : Option FaultCode
  deriving DecidableEq, Repr

/-- Who stands behind the word channel: any channel at all (R169), or the reference target (R246). -/
inductive Collaborator where
  | external
  | reference
  deriving DecidableEq, Repr

/-- The state. The first ten fields are those of R20, in its order. -/
structure State where
  /-- Outbound Queue, front = next word to send (R21) -/
  outQ : List Word32
  /-- Inbound Queue, front = oldest received word (R22) -/
  inQ : List Word32
  /-- which context runs (R24) -/
  ctx : Ctx
  /-- index of the current host operation (R20) -/
  hpc : Nat
  /-- word count of the outstanding read (R25) -/
  outstanding : Option Nat
  /-- words collected by the read in progress (R26) -/
  rdBuf : List Word32
  /-- completed results, buffer numbers strictly rising; a name not listed maps to `none` (R27,
  log 18) -/
  results : List (Nat × List Word32)
  /-- the sticky fault (R28) -/
  fault : Option FaultCode
  /-- words handshaken out (R29, log 20) -/
  sentLog : List Word32
  /-- words handshaken in (R29, log 20) -/
  recvLog : List Word32
  /-- the run's parameters, which no step writes (R7) -/
  cfg : Params
  /-- the run's host program, which no step writes (R7, R182) -/
  prog : List Instr
  /-- MODEL: who stands behind the word channel (log 13) -/
  collaborator : Collaborator
  /-- MODEL: the channel inputs of the coming target turns, for an external collaborator (log 5) -/
  draws : List Draw
  /-- MODEL: target turns taken; once `draws` is used up, the argument of the free draws (log 5) -/
  turns : Nat
  /-- the reference target's record, idle while the collaborator is external (R245) -/
  target : RefTarget
  deriving DecidableEq, Repr

/-- Why the machine has no next state: each is a step that the spec's step relation (R187) does not have. -/
inductive Fault where
  /-- Raised by every instruction in a state with `fault = some c`: a faulted state has no step (R187, R211).
  Safe: the spec stops here too. -/
  | halted (c : FaultCode)
  /-- Raised by an operation of the one context while the other runs: it is not enabled there (R182, R185,
  R235). Safe: the spec has no such step (log 8). -/
  | outOfTurn
  /-- Raised by `idle` while the program still has an operation to run (R186). Safe, as `outOfTurn`. -/
  | notIdle
  /-- Raised by an append that would pass a finite `QUEUE_DEPTH`: the stuck host step of I7. Safe for claims
  about what happens, and the hang itself for claims of liveness (log 4). -/
  | queueFull
  deriving DecidableEq, Repr

/-- What the machine gives no meaning to. -/
inductive Refusal where
  /-- Raised by no arm of this model: an instruction without a meaning. Safe. -/
  | notModelled (mnemonic : String)
  /-- Raised by READ and WRITE in the target context when the target is external: what a real target does with
  a command is out of scope (R4(b), I16). Safe (log 9). -/
  | targetUnspecified
  /-- Raised by RESERVED_HEADER unless the reference parser reads it: the block never emits one and the spec
  gives a receiver of one no behaviour (R82, I3). Safe (log 11). -/
  | reservedHeader
  deriving DecidableEq, Repr

/-- The reference target before its first turn, with `mem0` all zero (R245, 95_test_vectors.md). -/
def RefTarget.initial : RefTarget := { mem := [], phase := .hdr, tx := [], tfault := none }

/-- The state after power-on (R39, R220): no program is loaded (log 1), every draw is free (log 5),
and the model's own fields stand as log 21 says. -/
def State.reset : State :=
  { outQ := [], inQ := [], ctx := .host, hpc := 0, outstanding := none, rdBuf := [], results := [],
    fault := none, sentLog := [], recvLog := [], cfg := Params.default, prog := [],
    collaborator := .external, draws := [], turns := 0, target := RefTarget.initial }

end Sys2Proof.Machine
end

