-- ==== Sys2Proof/Machine/Ops.lean ====
section
/-! DEFINITION. The named operations over the state that the meanings share: raising a fault (R210), the two
contexts' turn discipline (R182, R185, R235), pushing to the Outbound Queue (R10, R21), the sparse tables behind
`results` and the reference target's memory. There is no return from a fault (R212), so none stands here. -/

namespace Sys2Proof.Machine

/-- The answer of a step. -/
abbrev Result := Host.Outcome State Fault Refusal

/-! ## Faults and turns -/

/-- `raise Fault(c)`: the code is recorded and every other write of the step is discarded, so `s` is the state
before the step (R12, R210); the stop is the next step's (log 7). -/
def raiseFault (c : FaultCode) (s : State) : Result := .next { s with fault := some c }

/-- A host step is enabled when `fault = none` and `ctx = Host` (R182, R187). -/
def whenHost (s : State) (act : Result) : Result :=
  match s.fault with
  | some c => .fault (.halted c)
  | none =>
    match s.ctx with
    | .host => act
    | .target => .fault .outOfTurn

/-- A channel operation is enabled when `fault = none` and `ctx = Target` (R160, R185, R187). -/
def whenTarget (s : State) (act : Result) : Result :=
  match s.fault with
  | some c => .fault (.halted c)
  | none =>
    match s.ctx with
    | .target => act
    | .host => .fault .outOfTurn

/-- `switch_to(c)` (R12): a switch carries no data (R181). -/
def switchTo (c : Ctx) (s : State) : State := { s with ctx := c }

/-- `st.hpc <- st.hpc + 1`. -/
def advance (s : State) : State := { s with hpc := s.hpc + 1 }

/-! ## The queues (R10, R21, R22) -/

/-- Whether `k` more words fit the Outbound Queue: always, unless `QUEUE_DEPTH` is finite (R21, I7). -/
def roomFor (s : State) (k : Nat) : Bool :=
  match s.cfg.queueDepth with
  | none => true
  | some d => decide (s.outQ.length + k ≤ d)

/-- `push(st.outQ, ws)`, then the rest of the step; an append past a finite depth is a stuck host step (I7). -/
def pushOut (ws : List Word32) (s : State) (rest : State → Result) : Result :=
  if roomFor s ws.length then rest { s with outQ := s.outQ ++ ws } else .fault .queueFull

/-- `push(st.inQ, [w])` with its log entry (R162). -/
def acceptWord (w : Word32) (s : State) : State :=
  { s with inQ := s.inQ ++ [w], recvLog := s.recvLog ++ [w] }

/-- Words accepted in order (R55, R81). -/
def acceptWords : List Word32 → State → State
  | [], s => s
  | w :: ws, s => acceptWords ws (acceptWord w s)

/-! ## Sparse tables: keys strictly rising -/

/-- The keys rise strictly, so that equal tables are equal lists. -/
abbrev Table.Sorted {α : Type} (t : List (Nat × α)) : Prop := t.Pairwise fun x y => x.1 < y.1

/-- The value at key `k`, if listed. -/
def Table.get {α : Type} (k : Nat) : List (Nat × α) → Option α
  | [] => none
  | (j, v) :: t => if j = k then some v else Table.get k t

/-- The table with `v` at key `k`. -/
def Table.set {α : Type} (k : Nat) (v : α) : List (Nat × α) → List (Nat × α)
  | [] => [(k, v)]
  | (j, u) :: t =>
    if k < j then (k, v) :: (j, u) :: t
    else if k = j then (k, v) :: t
    else (j, u) :: Table.set k v t

/-- The table without key `k`. -/
def Table.erase {α : Type} (k : Nat) : List (Nat × α) → List (Nat × α)
  | [] => []
  | (j, u) :: t => if j = k then t else (j, u) :: Table.erase k t

/-- `results b` (R27): `none` is no value. -/
def resultOf (s : State) (b : Nat) : Option (List Word32) := Table.get b s.results

/-! ## The reference target's memory (R245) -/

/-- What an address that the memory does not list reads as: the default `mem0` (95_test_vectors.md, log 13). -/
def Memory.unlisted : Word32 := 0

/-- The one canonical form: addresses strictly rising, no entry equal to what an unlisted address reads as. -/
abbrev Memory.wf (m : Memory) : Prop := Table.Sorted m ∧ ∀ e ∈ m, e.2 ≠ Memory.unlisted

/-- `MemRead(a, 4)`, the word at `a` (R249). -/
def Memory.read (m : Memory) (a : Nat) : Word32 := (Table.get a m).getD Memory.unlisted

/-- `MemWrite(a, 4, w)` (R248). -/
def Memory.write (m : Memory) (a : Nat) (w : Word32) : Memory :=
  if w = Memory.unlisted then Table.erase a m else Table.set a w m

end Sys2Proof.Machine
end

