-- ==== Sys2Proof/Machine/Operands.lean ====
section
/-! DEFINITION. The operand checks of the host operations, in the priority order of 60_exceptions.md R209. The
block has no registers and no addressing modes: every operand is a literal of its operation (10_state.md R34). -/

namespace Sys2Proof.Machine

/-- `checkLen(b)`: the word count, or the fault the byte count raises (R100, R202 to R204). -/
def checkLen (c : Params) (b : Nat) : Except FaultCode Nat :=
  if b % wordBytes ≠ 0 then .error .badByteCount
  else if b = 0 then .error .zeroLength
  else if b / wordBytes - 1 ≥ c.lenBound then .error .lengthOverflow
  else .ok (b / wordBytes)

/-- The address check and then `checkLen`: the checks `encode_read` and `encode_write` share (R101, R106, R201).
No alignment, existence or protection check (R52, R57, R62, R108). -/
def checkTransfer (c : Params) (a b : Nat) : Except FaultCode Nat :=
  if a ≥ c.addrBound then .error .addressRange else checkLen c b

end Sys2Proof.Machine
end

