-- ==== Sys2Proof/Machine/Encoder.lean ====
section
/-! DEFINITION. The Command Encoder (40_command_encoder.md): `encode_read` and `encode_write`, and the host
operations `read_req`, `write` and `write_chunk`. -/

namespace Sys2Proof.Machine

/-- The body of `encode_read(a, b)` in an enabled host step (R101). -/
def encodeRead (a b : Nat) (s : State) : Result :=
  match checkTransfer s.cfg a b with
  | .error e => raiseFault e s
  | .ok n =>
    if s.outstanding ≠ none then raiseFault .readOverlap s
    else pushOut (encRead s.cfg a n) s fun s1 => .next (advance { s1 with outstanding := some n })

/-- The body of `encode_write(a, b, p)` in an enabled host step (R106); `outstanding` is not looked at (D31). -/
def encodeWrite (a b : Nat) (p : List Word32) (s : State) : Result :=
  match checkTransfer s.cfg a b with
  | .error e => raiseFault e s
  | .ok n =>
    if p.length ≠ n then raiseFault .payloadMismatch s
    else pushOut (encWrite s.cfg a n p) s fun s1 => .next (advance s1)

/-- `read_req ADDR, BYTES` (R101). -/
def execReadReq (a b : Nat) (s : State) : Result := whenHost s (encodeRead a b s)

/-- `write ADDR, BYTES, [W0, ...]` (R106). -/
def execWrite (a b : Nat) (p : List Word32) (s : State) : Result := whenHost s (encodeWrite a b p s)

/-- `write_chunk`, the source's other name for `write` (R88). -/
def execWriteChunk (a b : Nat) (p : List Word32) (s : State) : Result := whenHost s (encodeWrite a b p s)

end Sys2Proof.Machine
end

