-- ==== Sys2Proof/Machine/Poke.lean ====
section
/-! DEFINITION. The Register Poke Helpers (42_register_poke.md): pure sequences of WRITE commands, with no state,
no read-back and no wait (R145). -/

namespace Sys2Proof.Machine

/-- `start_program`: one WRITE of 1 to `START_ADDR` (R140). -/
def execStartProgram (s : State) : Result :=
  whenHost s (pushOut (encWrite s.cfg s.cfg.startAddr 1 [1]) s fun s1 => .next (advance s1))

/-- `reset`: two WRITEs of 0, to `RESET_ADDR_FIRST` and then `RESET_ADDR_SECOND`, in one host step (R143, log 14). -/
def execReset (s : State) : Result :=
  whenHost s
    (pushOut (encWrite s.cfg s.cfg.resetFirst 1 [0]) s fun s1 =>
      pushOut (encWrite s.cfg s.cfg.resetSecond 1 [0]) s1 fun s2 => .next (advance s2))

end Sys2Proof.Machine
end

