-- ==== Sys2Proof/Machine/Flags.lean ====
section
/-! DEFINITION. The block has no flags and no condition codes (10_state.md R35). Its only Boolean quantities are
the boundary signals of R30 to R33: those it drives are functions of the state and stand here. -/

namespace Sys2Proof.Machine

/-- `out_valid` (R30). -/
def outValid (s : State) : Bool := !s.outQ.isEmpty

/-- `out_bits`: the front word; no value while `out_valid` is false (R31). -/
def outBits (s : State) : Option Word32 := s.outQ.head?

/-- `in_ready`: constantly true (R32, R164). PRESUMED by the spec from the fesvr adapter (D8, G4, log 19). -/
def inReady (_ : State) : Bool := true

end Sys2Proof.Machine
end

