-- ==== Sys2Proof/Machine/Channel.lean ====
section
/-! DEFINITION. The word-level interface (43_channel_interface.md): `offer_outbound_word`, `accept_inbound_word`
and the channel step, and the arrival of a response (30_encoding.md R81). -/

namespace Sys2Proof.Machine

/-- The outbound half: the front word leaves if and only if `out_valid ∧ out_ready` (R163, R166). -/
def outboundHalf (outReady : Bool) (s : State) : State :=
  if outReady && outValid s then
    { s with outQ := s.outQ.tail, sentLog := s.sentLog ++ (outBits s).toList }
  else s

/-- The inbound half: a word arrives if and only if `in_valid ∧ in_ready` (R164, R166). -/
def inboundHalf (inValid : Bool) (inBits : Word32) (s : State) : State :=
  if inValid && inReady s then acceptWord inBits s else s

/-- `channel_step(out_ready, in_valid, in_bits)`: no word's value is looked at (R166, R167). -/
def channelStep (outReady inValid : Bool) (inBits : Word32) (s : State) : State :=
  inboundHalf inValid inBits (outboundHalf outReady s)

/-- `offer_outbound_word`: the front word is shown as `outBits s`, and no state changes (R161, C1, log 15). -/
def execOfferOutboundWord (s : State) : Result := whenTarget s (.next s)

/-- `accept_inbound_word(w)`, whether or not a read is outstanding (R162, D29). -/
def execAcceptInboundWord (w : Word32) (s : State) : Result := whenTarget s (.next (acceptWord w s))

/-- `channel_step` as an operation of its own (R166): no turn, so an attached reference target's record, the script of
draws and the count of turns stay as they were (DESIGN CHOICE, log 30). -/
def execChannelStep (outReady inValid : Bool) (inBits : Word32) (s : State) : Result :=
  whenTarget s (.next (channelStep outReady inValid inBits s))

/-- READ_RESPONSE: the `n` data words of a response arrive in order, with no header, no status word and no check
against any READ (R81, R125). The channel moves one of them a turn (R166); this is their sum (log 10). -/
def execReadResponse (words : List Word32) (s : State) : Result := whenTarget s (.next (acceptWords words s))

end Sys2Proof.Machine
end

