-- ==== Sys2Proof/Machine/StreamParser.lean ====
section
/-! DEFINITION. The command-stream parser: the receiver's reading of the wire grammar (45_reference_target.md R241,
R242). -/

namespace Sys2Proof.Machine

/-- The words of a command: `enc` (R79). -/
def encCommand (c : Params) : Command → List Word32
  | .read a n => encRead c a n
  | .write a n p => encWrite c a n p

/-- Well-formed commands (R71), with the word counts the length field can hold (R77). -/
def commandWf (c : Params) : Command → Bool
  | .read a n => decide (a < c.addrBound) && decide (1 ≤ n) && decide (n ≤ c.lenBound)
  | .write a n p =>
    decide (a < c.addrBound) && decide (1 ≤ n) && decide (n ≤ c.lenBound) && decide (p.length = n)

/-- The wire row of a command. -/
def instrOfCommand : Command → Instr
  | .read a n => .wireRead a n
  | .write a n p => .wireWrite a n p

/-- `parse_word(phase, w)` (R242). -/
def parseWord (c : Params) (ph : Phase) (w : Word32) : Except FaultCode (Phase × Option Command) :=
  match ph with
  | .hdr =>
    if w = c.opRead then .ok (.addr .read 0 0, none)
    else if w = c.opWrite then .ok (.addr .write 0 0, none)
    else .error .illegalCommand
  | .addr kd k acc =>
    if k + 1 < c.addrChunks then .ok (.addr kd (k + 1) (acc + w.toNat * 2 ^ (32 * k)), none)
    else .ok (.len kd (acc + w.toNat * 2 ^ (32 * k)) 0 0, none)
  | .len kd a k acc =>
    if k + 1 < c.lenChunks then .ok (.len kd a (k + 1) (acc + w.toNat * 2 ^ (32 * k)), none)
    else
      match kd with
      | .read => .ok (.hdr, some (.read a (acc + w.toNat * 2 ^ (32 * k) + 1)))
      | .write => .ok (.pay a (acc + w.toNat * 2 ^ (32 * k) + 1) 0 [], none)
  | .pay a n k ws =>
    if k + 1 < n then .ok (.pay a n (k + 1) (ws ++ [w]), none)
    else .ok (.hdr, some (.write a n (ws ++ [w])))

/-- `parse_word` folded over a list from a phase: the completed commands and the final phase (R242). -/
def parseFrom (c : Params) : Phase → List Word32 → Except FaultCode (List Command × Phase)
  | ph, [] => .ok ([], ph)
  | ph, w :: ws =>
    match parseWord c ph w with
    | .error e => .error e
    | .ok (ph', done) =>
      match parseFrom c ph' ws with
      | .error e => .error e
      | .ok (cmds, last) => .ok (done.toList ++ cmds, last)

/-- `parse(ws)` (R242). -/
def parseStream (c : Params) (ws : List Word32) : Except FaultCode (List Command × Phase) :=
  parseFrom c .hdr ws

end Sys2Proof.Machine
end

