-- ==== Sys2Proof/Machine/RefTarget.lean ====
section
/-! DEFINITION. The reference echo-memory target: its draws (45_reference_target.md R246), its own update after a
turn (R247), and the commands it executes (R248, R249). A test collaborator, no part of the block (R5, R240). -/

namespace Sys2Proof.Machine

/-- The address of word `k` of a transfer at `a` (R248, R249). -/
def wordAddr (c : Params) (a k : Nat) : Nat := (a + 4 * k) % c.addrBound

/-- Words stored in order, from word `k` of the transfer at `a` on (R248). -/
def storeWords (c : Params) (a : Nat) : Nat → List Word32 → Memory → Memory
  | _, [], m => m
  | k, w :: ws, m => storeWords c a (k + 1) ws (Memory.write m (wordAddr c a k) w)

/-- `n` words loaded in order, from word `k` of the transfer at `a` on (R249). -/
def loadWords (c : Params) (a : Nat) (m : Memory) : Nat → Nat → List Word32
  | _, 0 => []
  | k, n + 1 => Memory.read m (wordAddr c a k) :: loadWords c a m (k + 1) n

/-- Executing `Write(a, n, p)` (R248). DESIGN CHOICE (log 27): it stores all of `p`, which is R248's loop for a
well-formed command, `|p| = n` (R71); the parser completes no other. -/
def refStore (c : Params) (a : Nat) (p : List Word32) (t : RefTarget) : RefTarget :=
  { t with mem := storeWords c a 0 p t.mem }

/-- Executing `Read(a, n)`: the response words wait in `tx` (R249). -/
def refLoad (c : Params) (a n : Nat) (t : RefTarget) : RefTarget :=
  { t with tx := t.tx ++ loadWords c a t.mem 0 n }

/-- Executing a completed command (R247 step 3). -/
def refExecute (c : Params) (cmd : Command) (t : RefTarget) : RefTarget :=
  match cmd with
  | .read a n => refLoad c a n t
  | .write a _ p => refStore c a p t

/-- Receiving one word: the parser moves on, a completed command executes, an illegal header stops the target
(R247 steps 2 and 3, R250). DESIGN CHOICE (log 29): an illegal header records its code and discards nothing else: what
the channel step and R247 step 1 did in the same turn stands. -/
def refReceive (c : Params) (w : Word32) (t : RefTarget) : RefTarget :=
  match parseWord c t.phase w with
  | .error e => { t with tfault := some e }
  | .ok (ph, none) => { t with phase := ph }
  | .ok (ph, some cmd) => refExecute c cmd { t with phase := ph }

/-- The reference target's update after a channel step in which the inbound half fired or not, and the outbound
half moved `sent` or nothing (R247). DESIGN CHOICE (log 30): it runs on what the channel step moved, also where R246
would not choose the draw: with nothing in `tx` nothing leaves it, and a target that has stopped parses all the same. -/
def refAfterTurn (c : Params) (inbound : Bool) (sent : Option Word32) (t : RefTarget) : RefTarget :=
  let t1 := if inbound then { t with tx := t.tx.tail } else t
  match sent with
  | none => t1
  | some w => refReceive c w t1

/-- The reference target's draws, chosen at the start of a turn (R246). -/
def refDraw (t : RefTarget) : Draw :=
  { outReady := t.tfault.isNone
    inValid := t.tfault.isNone && !t.tx.isEmpty
    inBits := t.tx.headD 0 }

/-- "started": the trigger cell holds 1 (R248). -/
def refStarted (c : Params) (t : RefTarget) : Bool := Memory.read t.mem c.startAddr == 1

/-- "released": both reset cells hold 0 (R248). -/
def refReleased (c : Params) (t : RefTarget) : Bool :=
  Memory.read t.mem c.resetFirst == 0 && Memory.read t.mem c.resetSecond == 0

end Sys2Proof.Machine
end

