-- ==== Sys2Proof/Machine/Scheduler.lean ====
section
/-! DEFINITION. The cooperative scheduler (44_scheduler.md): `yield`, the idle host step, the target turn, the
lines of the host program and the draws of a turn. -/

namespace Sys2Proof.Machine

/-- The host program with its pseudo-operation `read` expanded (R87): what `hpc` counts (log 6). -/
def programLines (s : State) : List Instr := s.prog.flatMap expandLine

/-- `yield` (R184). -/
def execYield (s : State) : Result := whenHost s (.next (advance (switchTo .target s)))

/-- The idle host step, taken when the program has no operation left (R182, R186, log 22). -/
def execIdle (s : State) : Result :=
  whenHost s (if s.hpc < (programLines s).length then .fault .notIdle else .next (switchTo .target s))

/-- The end of a turn: control returns to the host (R185); the turn is counted and its scripted draw used up
(log 5); the reference target, if it is the collaborator, updates itself (R247). `sent` is the word the outbound
half moved. DESIGN CHOICE (log 30): the draw may be any, also one that R246 or the script would not choose. -/
def endTurn (inValid : Bool) (sent : Option Word32) (s : State) : State :=
  { switchTo .host s with
    draws := s.draws.tail
    turns := s.turns + 1
    target :=
      match s.collaborator with
      | .external => s.target
      | .reference => refAfterTurn s.cfg inValid sent s.target }

/-- One target turn: the channel step, then the switch back (R185). The draw is the instruction's own (log 30); the
machine's step hands it the one of `nextDraw`. -/
def execTargetTurn (outReady inValid : Bool) (inBits : Word32) (s : State) : Result :=
  whenTarget s
    (.next (endTurn inValid (if outReady then outBits s else none) (channelStep outReady inValid inBits s)))

/-- The draw of the next target turn: the reference target's (R246); else the next scripted one; else a free one,
under no law (R8, R169, log 5). -/
def nextDraw (s : State) : Draw :=
  match s.collaborator with
  | .reference => refDraw s.target
  | .external =>
    match s.draws with
    | d :: _ => d
    | [] =>
      { outReady := Config.freeOutReady s.turns
        inValid := Config.freeInValid s.turns
        inBits := Config.freeInBits s.turns }

/-- What the machine runs next (R182, R185, R187): in the host context the operation at `hpc`, or `idle` after the
last one; in the target context a turn with its draw. -/
def fetch (s : State) : Instr :=
  match s.ctx with
  | .host =>
    match (programLines s)[s.hpc]? with
    | some i => i
    | none => .idle
  | .target => .targetTurn (nextDraw s).outReady (nextDraw s).inValid (nextDraw s).inBits

/-- A machine with the one-line program `i`, about to run it: a program is loaded from outside (log 1). -/
def loadOne (i : Instr) (s : State) : State := { s with prog := [i], hpc := 0, ctx := .host }

/-- The instruction of a table row's bits loaded as `loadOne` does. -/
def loadTableWord (s : State) (nbits w : Nat) : State :=
  match decodeTableWordAt s.cfg nbits w with
  | some i => loadOne i s
  | none => s

/-- A host program loaded from its text (R84), or the reason the parser refuses it. -/
def loadText (cs : List Char) (s : State) : Except Reject State :=
  match parseProgram cs with
  | .ok prog => .ok { s with prog := prog, hpc := 0 }
  | .error e => .error e

end Sys2Proof.Machine
end

