-- ==== Sys2Proof/Machine/Decoder.lean ====
section
/-! DEFINITION. The Response Decoder (41_response_decoder.md): `read_result`, one host step at a time, and the
pseudo-operation `read`. -/

namespace Sys2Proof.Machine

/-- The word `w`, already popped, joins the read of `n` words into buffer `k`; the last one completes it (R122,
R123). -/
def collectWord (n k : Nat) (w : Word32) (s : State) : State :=
  if s.rdBuf.length + 1 = n then
    advance { s with results := Table.set k (s.rdBuf ++ [w]) s.results, rdBuf := [], outstanding := none }
  else { s with rdBuf := s.rdBuf ++ [w] }

/-- One enabled host step of `read_result(b) -> bk` (R122): a word moves, or the host yields. -/
def readResult (b k : Nat) (s : State) : Result :=
  match checkLen s.cfg b with
  | .error e => raiseFault e s
  | .ok n =>
    if s.outstanding ≠ some n then raiseFault .readMismatch s
    else
      match s.inQ with
      | [] => .next (switchTo .target s)
      | w :: q => .next (collectWord n k w { s with inQ := q })

/-- `read_resp BYTES -> bK` (R121, R122). -/
def execReadResp (b k : Nat) (s : State) : Result := whenHost s (readResult b k s)

/-- Host steps on the same `read_resp` line, at most `fuel` of them, until it completes, yields or faults. -/
def drainRead (b k : Nat) : Nat → State → Result
  | 0, s => .next s
  | fuel + 1, s =>
    match readResult b k s with
    | .next t =>
      if t.ctx = .host ∧ t.fault = none ∧ t.hpc = s.hpc then drainRead b k fuel t else .next t
    | .fault r => .fault r
    | .refused r => .refused r

/-- `read ADDR, BYTES -> bK`: its `read_req` line, then its `read_resp` line as far as that goes in one host turn
(R87, R128). `hpc` counts the two lines. A turn on the second line pops every word of `inQ` and then yields at the
latest, which bounds the steps (R188). -/
def execRead (a b k : Nat) (s : State) : Result :=
  whenHost s
    (match encodeRead a b s with
     | .next t => if t.fault = none then drainRead b k (t.inQ.length + 1) t else .next t
     | .fault r => .fault r
     | .refused r => .refused r)

end Sys2Proof.Machine
end

