-- ==== Sys2Proof/Machine/Wire.lean ====
section
/-! DEFINITION. The wire commands READ, WRITE and RESERVED_HEADER of the opcode table. A command has two ends: the
host context issues it (R101, R106), and the target executes it (R248, R249). Which end runs is `ctx` (log 9). -/

namespace Sys2Proof.Machine

/-- What the reference target does with an enabled operation in the target context; an external target's own
behaviour is out of scope (R4(b), I3, I16). DESIGN CHOICE (log 28): a target that has stopped (`tfault`) still executes
a row applied to it; by R246 and R250 no turn hands such a target a word. -/
def atReference (s : State) (why : Refusal) (act : RefTarget → RefTarget) : Result :=
  match s.collaborator with
  | .external => .refused why
  | .reference => .next { s with target := act s.target }

/-- In the host context, `issue`; in the target context, `execute`; in a faulted state, no step (R187). -/
def byContext (s : State) (issue execute : Result) : Result :=
  match s.fault with
  | some c => .fault (.halted c)
  | none =>
    match s.ctx with
    | .host => issue
    | .target => execute

/-- READ: `Read(a, n)` is issued as `encode_read(a, 4·n)` (R101, C4), or executed at the reference target (R249). -/
def execWireRead (a n : Nat) (s : State) : Result :=
  byContext s (encodeRead a (wordBytes * n) s) (atReference s .targetUnspecified (refLoad s.cfg a n))

/-- WRITE: `Write(a, n, p)` is issued as `encode_write(a, 4·n, p)` (R106, C4), or executed at the reference target
(R248). -/
def execWireWrite (a n : Nat) (p : List Word32) (s : State) : Result :=
  byContext s (encodeWrite a (wordBytes * n) p s) (atReference s .targetUnspecified (refStore s.cfg a p))

/-- RESERVED_HEADER: the block never emits one (R82), so the host context has no such step; the reference parser,
expecting a header, faults `IllegalCommand` into `tfault` (R208, R242, R250); no other receiver has a meaning for
it (I3, log 11). -/
def execReservedHeader (w : Word32) (s : State) : Result :=
  byContext s (.refused .reservedHeader)
    (atReference s .reservedHeader fun t => refReceive s.cfg w { t with phase := .hdr })

end Sys2Proof.Machine
end

