-- ==== Sys2Proof/Machine/Dispatch.lean ====
section
/-! DEFINITION. The meaning of every instruction of the opcode table, one arm each. -/

namespace Sys2Proof.Machine

def exec (i : Instr) (s : State) : Host.Outcome State Fault Refusal :=
  match i with
  | .wireRead a n => Sys2Proof.Machine.execWireRead a n s
  | .wireWrite a n p => Sys2Proof.Machine.execWireWrite a n p s
  | .readResponse ws => Sys2Proof.Machine.execReadResponse ws s
  | .reservedHeader w => Sys2Proof.Machine.execReservedHeader w s
  | .readReq a b => Sys2Proof.Machine.execReadReq a b s
  | .write a b p => Sys2Proof.Machine.execWrite a b p s
  | .writeChunk a b p => Sys2Proof.Machine.execWriteChunk a b p s
  | .readResp b k => Sys2Proof.Machine.execReadResp b k s
  | .read a b k => Sys2Proof.Machine.execRead a b k s
  | .startProgram => Sys2Proof.Machine.execStartProgram s
  | .reset => Sys2Proof.Machine.execReset s
  | .yield => Sys2Proof.Machine.execYield s
  | .offerOutboundWord => Sys2Proof.Machine.execOfferOutboundWord s
  | .acceptInboundWord w => Sys2Proof.Machine.execAcceptInboundWord w s
  | .channelStep r v w => Sys2Proof.Machine.execChannelStep r v w s
  | .targetTurn r v w => Sys2Proof.Machine.execTargetTurn r v w s
  | .idle => Sys2Proof.Machine.execIdle s

end Sys2Proof.Machine
end

