-- ==== Sys2Proof/Machine/Step.lean ====
section
/-! DEFINITION. The step relation (44_scheduler.md R187) as a function: the nondeterminism of a target turn is in
the draw that `fetch` reads. -/

namespace Sys2Proof.Machine

/-- One step: what `fetch` selects, run by `exec`, with nothing around it. -/
def step (s : State) : Host.Outcome State Fault Refusal := exec (fetch s) s

/-- `s` with the instruction of a table row's bits loaded as its whole program, so that the next step runs it. -/
def State.withFetchWord (s : State) (nbits w : Nat) : State := loadTableWord s nbits w

end Sys2Proof.Machine
end

