-- ==== Sys2Proof/Safety.lean ====
section
/-! DEFINITION. What claims are stated in: which states may step, the observation point of a run (R190), the
invariant every step keeps (10_state.md R38), what a step pushes (R90), and the premises on the target that a
claim may take by name (92_eei_decisions.md D22, D24). Nothing here is part of a step. -/

namespace Sys2Proof.Machine

/-- The host context may step (R182). -/
abbrev State.HostReady (s : State) : Prop := s.ctx = .host ∧ s.fault = none

/-- The target context may step (R185). -/
abbrev State.TargetReady (s : State) : Prop := s.ctx = .target ∧ s.fault = none

/-- The host is idle: the state a claim about "what the program did" is about (R186, R190). -/
abbrev State.AtIdle (s : State) : Prop := s.HostReady ∧ s.hpc = (programLines s).length

/-- `t` is the observation point of the run from `s`, reached after `k` steps and not before (R190). -/
def ObservedAt (k : Nat) (s t : State) : Prop :=
  core.run k s = .next t ∧ t.AtIdle ∧ ∀ j u, j < k → core.run j s = .next u → ¬ u.AtIdle

/-! ## The invariant -/

/-- R38 (i) and (ii): without an outstanding read nothing is collected; with one of `n` words, fewer than `n` are. -/
def State.PendingReadOk (s : State) : Prop :=
  match s.outstanding with
  | none => s.rdBuf = []
  | some n => 1 ≤ n ∧ s.rdBuf.length < n

/-- The parser's phase is one that a stream can lead to (R241). -/
def Phase.Ok (c : Params) : Phase → Prop
  | .hdr => True
  | .addr _ k acc => k < c.addrChunks ∧ acc < 2 ^ (32 * k)
  | .len _ a k acc => a < c.addrBound ∧ k < c.lenChunks ∧ acc < 2 ^ (32 * k)
  | .pay a n k ws => a < c.addrBound ∧ n ≤ c.lenBound ∧ k < n ∧ ws.length = k

/-- The reference target's record: canonical memory, addresses of `32·A` bits (R245), a reachable phase. -/
def RefTarget.Ok (c : Params) (t : RefTarget) : Prop :=
  Memory.wf t.mem ∧ (∀ e ∈ t.mem, e.1 < c.addrBound) ∧ t.phase.Ok c

/-- What every step keeps: R38 (i) to (iii), the parameters of R7, the one canonical form of each table, and the
reference target's record. -/
def State.Inv (s : State) : Prop :=
  s.cfg.wf = true ∧ s.PendingReadOk ∧ s.hpc ≤ (programLines s).length ∧ Table.Sorted s.results ∧
  s.target.Ok s.cfg

/-! ## The wire's history (R38 (v), (vi), R63, R90) -/

/-- The words a host step on `i` pushes when it completes (R90). -/
def pushedBy (c : Params) : Instr → List Word32
  | .wireRead a n => encRead c a n
  | .wireWrite a n p => encWrite c a n p
  | .readResponse _ => []
  | .reservedHeader _ => []
  | .readReq a b => encRead c a (b / wordBytes)
  | .write a b p => encWrite c a (b / wordBytes) p
  | .writeChunk a b p => encWrite c a (b / wordBytes) p
  | .readResp _ _ => []
  | .read a b _ => encRead c a (b / wordBytes)
  | .startProgram => encWrite c c.startAddr 1 [1]
  | .reset => encWrite c c.resetFirst 1 [0] ++ encWrite c c.resetSecond 1 [0]
  | .yield => []
  | .offerOutboundWord => []
  | .acceptInboundWord _ => []
  | .channelStep _ _ _ => []
  | .targetTurn _ _ _ => []
  | .idle => []

/-- The words pushed in one step from `s` to `t`: those of the operation, unless the step raised a fault. -/
def pushedIn (s t : State) : List Word32 :=
  if s.ctx = .host ∧ t.fault = none then pushedBy s.cfg (fetch s) else []

/-- The words the first `k` steps of a run from `s` push, in push order. -/
def pushedAlong : Nat → State → List Word32
  | 0, _ => []
  | k + 1, s =>
    match step s with
    | .next t => pushedIn s t ++ pushedAlong k t
    | .fault _ => []
    | .refused _ => []

/-- The words `read_result` pops in one step from `s` to `t`. -/
def poppedIn (s t : State) : List Word32 :=
  if s.ctx = .host then s.inQ.take (s.inQ.length - t.inQ.length) else []

/-- The words `read_result` pops in the first `k` steps of a run from `s`, in pop order. -/
def poppedAlong : Nat → State → List Word32
  | 0, _ => []
  | k + 1, s =>
    match step s with
    | .next t => poppedIn s t ++ poppedAlong k t
    | .fault _ => []
    | .refused _ => []

/-! ## Commands issued, and the words their READs ask for -/

/-- `cmds` are the commands issued so far, in order: everything sent or still queued is their words (R64, R79). -/
def State.Issued (s : State) (cmds : List Command) : Prop :=
  (∀ x ∈ cmds, commandWf s.cfg x = true) ∧ s.sentLog ++ s.outQ = cmds.flatMap (encCommand s.cfg)

/-- How many response words the READs among some commands ask for (R81). -/
def demanded : List Command → Nat
  | [] => 0
  | .read _ n :: rest => n + demanded rest
  | .write _ _ _ :: rest => demanded rest

/-- The books of the reads: the words asked for are the words received, but for those of the outstanding read that
are neither collected nor queued (R25, R26, R38 (vi)). -/
def State.ReadsBalance (s : State) : Prop :=
  ∃ cmds, s.Issued cmds ∧
    demanded cmds + s.rdBuf.length + s.inQ.length = s.recvLog.length + s.outstanding.getD 0

/-! ## Premises on the target (D22, D24) -/

/-- The response words that commands executed in wire order on an echo memory call for, and the memory left.
DESIGN CHOICE (log 23): it reads an address as the reference target does (R248, R249: word `k` at `a + 4k`,
overlapping words kept apart), a READ leaves the memory as it is, and every address, the control addresses among
them, is a plain cell that reads back what was last written. Only WRITE commands change the memory: no code that the
target runs does, and nothing else at the target. D5 and N21 make that addressing the reference target's only; R60 and
N6 leave a real target's side effects of a READ open, R146 and N5 what its control addresses read, and R4(b) what a
started target executes (the reference target executes no code, R248). -/
def honestAnswers (c : Params) : List Command → Memory → List Word32 × Memory
  | [], m => ([], m)
  | .read a n :: rest, m =>
    (loadWords c a m 0 n ++ (honestAnswers c rest m).1, (honestAnswers c rest m).2)
  | .write a _ p :: rest, m => honestAnswers c rest (storeWords c a 0 p m)

/-- `TargetHonest` at one state of a run whose target memory began as `m0`: the words received so far are a
beginning of the answers to the commands sent so far (D22). The reading, with the addressing of `honestAnswers`, is
the model's (log 23): of a real target it assumes more than D22 says. -/
def TargetHonestAt (m0 : Memory) (s : State) : Prop :=
  ∃ cmds ph, parseStream s.cfg s.sentLog = .ok (cmds, ph) ∧ s.recvLog <+: (honestAnswers s.cfg cmds m0).1

/-- `TargetHonest` (D22, log 23): every state of the run from `s` is honest. -/
def TargetHonest (m0 : Memory) (s : State) : Prop :=
  ∀ (k : Nat) (t : State), core.run k s = .next t → TargetHonestAt m0 t

/-- The target still owes inbound words: fewer came than the READs issued so far ask for (D24). A READ counts from
its issue, whether or not its words have left `outQ`, so that a channel that stops accepting words owes too (log 23). -/
def TargetOwes (s : State) : Prop := ∃ cmds, s.Issued cmds ∧ s.recvLog.length < demanded cmds

/-- `TargetProgress` (D24): whenever words are owed, some later turn delivers one, unless the block itself stops
first (log 23). -/
def TargetProgress (s : State) : Prop :=
  ∀ (k : Nat) (t : State), core.run k s = .next t → TargetOwes t →
    ∃ j, (∃ u : State, core.run (k + j) s = .next u ∧ t.recvLog.length < u.recvLog.length) ∨
      ∀ u : State, core.run (k + j) s ≠ .next u

/-- The words the channel delivers along a list of draws: those with `in_valid` (R164). -/
def arrivals (ds : List Draw) : List Word32 := (ds.filter (·.inValid)).map (·.inBits)

/-- Two states that differ at most in the values of the words received and to be received (R120, R167). -/
abbrev SameButInboundValues (s t : State) : Prop :=
  s.outQ = t.outQ ∧ s.ctx = t.ctx ∧ s.hpc = t.hpc ∧ s.outstanding = t.outstanding ∧ s.fault = t.fault ∧
  s.sentLog = t.sentLog ∧ s.cfg = t.cfg ∧ s.prog = t.prog ∧ s.collaborator = .external ∧
  t.collaborator = .external ∧ s.turns = t.turns ∧ s.target = t.target ∧
  s.inQ.length = t.inQ.length ∧ s.rdBuf.length = t.rdBuf.length ∧ s.recvLog.length = t.recvLog.length ∧
  s.results.map (·.1) = t.results.map (·.1) ∧
  s.draws.map (fun d => (d.outReady, d.inValid)) = t.draws.map (fun d => (d.outReady, d.inValid))

/-! ## The wire and the reference target in step (R242, R250, R251) -/

/-- Everything sent or still queued is whole well-formed commands, and a reference target's parser stands where
the words sent lead (R243, R250). -/
def State.WireInStep (s : State) : Prop :=
  s.cfg.wf = true ∧ s.collaborator = .reference ∧ s.target.tfault = none ∧
  (∃ cmds, s.Issued cmds) ∧
  ∃ done, parseStream s.cfg s.sentLog = .ok (done, s.target.phase)

/-- The reference target has answered the commands it received honestly: what it sent and what it still has to
send are the answers on a memory that began as `m0` (R251). -/
def State.EchoInStep (m0 : Memory) (s : State) : Prop :=
  s.collaborator = .reference ∧ s.target.tfault = none ∧
  ∃ done, parseStream s.cfg s.sentLog = .ok (done, s.target.phase) ∧
    honestAnswers s.cfg done m0 = (s.recvLog ++ s.target.tx, s.target.mem)

end Sys2Proof.Machine
end

