-- ==== Sys2Proof/Certificates/Slice0/Obligations.lean ====
section
/-! DEFINITION. The statements for the provers: what each operation and the machine do, rule by rule. A statement
whose state ranges over every `State` ranges over every parameter of R7 and every draw of R169. `roomFor` is true of
every state of the default, unbounded queue (R21). -/

open Sys2Proof Sys2Proof.Machine

/-! ## Command encoder -/

/-- R101 on a request its checks allow: exactly the words of R72 are pushed, the read is outstanding, the host moves
on, and nothing else changes. -/
def Obligations.ReadReqPushesRead : Prop :=
  ∀ (a b : Nat) (s : State), s.HostReady → a < s.cfg.addrBound → b % 4 = 0 → b ≠ 0 →
    b / 4 - 1 < s.cfg.lenBound → s.outstanding = none → roomFor s s.cfg.headWords = true →
    exec (.readReq a b) s = .next
      { s with
        outQ := s.outQ ++
          ([s.cfg.opRead] ++ chunks s.cfg.addrChunks a ++ chunks s.cfg.lenChunks (b / 4 - 1))
        outstanding := some (b / 4)
        hpc := s.hpc + 1 }

/-- R106 and R88 on a request its checks allow, whatever read is outstanding: `write` and `write_chunk` push exactly
the words of R73 and move on, and nothing else changes. -/
def Obligations.WritePushesWrite : Prop :=
  ∀ (a b : Nat) (p : List Word32) (s : State), s.HostReady → a < s.cfg.addrBound → b % 4 = 0 → b ≠ 0 →
    b / 4 - 1 < s.cfg.lenBound → p.length = b / 4 → roomFor s (s.cfg.headWords + p.length) = true →
    ∀ i ∈ [Instr.write a b p, .writeChunk a b p],
      exec i s = .next
        { s with
          outQ := s.outQ ++
            ([s.cfg.opWrite] ++ chunks s.cfg.addrChunks a ++ chunks s.cfg.lenChunks (b / 4 - 1) ++ p)
          hpc := s.hpc + 1 }

/-- The READ and WRITE rows in the host context: a command of `n` words is issued as R101 and R106 issue it from
`4·n` bytes (C4; log 9). -/
def Obligations.WireCommandsAreIssued : Prop :=
  ∀ (a n : Nat) (p : List Word32) (s : State), s.HostReady → a < s.cfg.addrBound → 1 ≤ n →
    n ≤ s.cfg.lenBound →
    (s.outstanding = none → roomFor s s.cfg.headWords = true →
      exec (.wireRead a n) s = .next
        { s with
          outQ := s.outQ ++ ([s.cfg.opRead] ++ chunks s.cfg.addrChunks a ++ chunks s.cfg.lenChunks (n - 1))
          outstanding := some n
          hpc := s.hpc + 1 }) ∧
    (p.length = n → roomFor s (s.cfg.headWords + n) = true →
      exec (.wireWrite a n p) s = .next
        { s with
          outQ := s.outQ ++
            ([s.cfg.opWrite] ++ chunks s.cfg.addrChunks a ++ chunks s.cfg.lenChunks (n - 1) ++ p)
          hpc := s.hpc + 1 })

/-- R201 with the effect of R210: an address at or above `2^(32·A)` faults `encode_read` and `encode_write` in every
form that runs them, before every other check (R209). That the READ and WRITE rows are such forms in the host context
is the model's choice (log 9). -/
def Obligations.WideAddressFaults : Prop :=
  ∀ (a b n k : Nat) (p : List Word32) (s : State), s.HostReady → s.cfg.addrBound ≤ a →
    ∀ i ∈ [Instr.readReq a b, .read a b k, .wireRead a n, .write a b p, .writeChunk a b p, .wireWrite a n p],
      exec i s = .next { s with fault := some .addressRange }

/-- R202 with the effect of R210: a byte count that is no multiple of 4 faults the three operations. -/
def Obligations.OddByteCountFaults : Prop :=
  ∀ (a b k : Nat) (p : List Word32) (s : State), s.HostReady → b % 4 ≠ 0 →
    exec (.readResp b k) s = .next { s with fault := some .badByteCount } ∧
    (a < s.cfg.addrBound → ∀ i ∈ [Instr.readReq a b, .read a b k, .write a b p, .writeChunk a b p],
      exec i s = .next { s with fault := some .badByteCount })

/-- R203 with the effect of R210: a byte count of 0 faults the three operations, whatever the payload. That the READ
and WRITE rows are issued as `4·n` bytes is the model's choice (log 9). -/
def Obligations.ZeroByteCountFaults : Prop :=
  ∀ (a k : Nat) (p : List Word32) (s : State), s.HostReady →
    exec (.readResp 0 k) s = .next { s with fault := some .zeroLength } ∧
    (a < s.cfg.addrBound →
      ∀ i ∈ [Instr.readReq a 0, .read a 0 k, .write a 0 p, .writeChunk a 0 p, .wireRead a 0, .wireWrite a 0 p],
        exec i s = .next { s with fault := some .zeroLength })

/-- R204 with the effect of R210: a length that does not fit the `32·L`-bit field faults the three operations; no
length is truncated. That the READ and WRITE rows are issued as `4·n` bytes is the model's choice (log 9). -/
def Obligations.OverlongCountFaults : Prop :=
  ∀ (a n k : Nat) (p : List Word32) (s : State), s.HostReady → s.cfg.lenBound ≤ n - 1 →
    exec (.readResp (4 * n) k) s = .next { s with fault := some .lengthOverflow } ∧
    (a < s.cfg.addrBound →
      ∀ i ∈ [Instr.readReq a (4 * n), .read a (4 * n) k, .write a (4 * n) p, .writeChunk a (4 * n) p,
        .wireRead a n, .wireWrite a n p],
        exec i s = .next { s with fault := some .lengthOverflow })

/-- R205 with the effect of R210: a payload of another length than the word count faults `encode_write`. That the
WRITE row is issued as `encode_write` is the model's choice (log 9). -/
def Obligations.PayloadLengthFaults : Prop :=
  ∀ (a n : Nat) (p : List Word32) (s : State), s.HostReady → a < s.cfg.addrBound → 1 ≤ n →
    n - 1 < s.cfg.lenBound → p.length ≠ n →
    ∀ i ∈ [Instr.write a (4 * n) p, .writeChunk a (4 * n) p, .wireWrite a n p],
      exec i s = .next { s with fault := some .payloadMismatch }

/-- R206 with the effect of R210: a second READ before the first is drained faults. That the READ row is issued as
`encode_read` is the model's choice (log 9). -/
def Obligations.SecondReadFaults : Prop :=
  ∀ (a n k : Nat) (s : State), s.HostReady → a < s.cfg.addrBound → 1 ≤ n → n - 1 < s.cfg.lenBound →
    s.outstanding ≠ none →
    ∀ i ∈ [Instr.readReq a (4 * n), .read a (4 * n) k, .wireRead a n],
      exec i s = .next { s with fault := some .readOverlap }

/-- R207 with the effect of R210: a drain with no outstanding READ, or of another count, faults. -/
def Obligations.UnmatchedDrainFaults : Prop :=
  ∀ (n k : Nat) (s : State), s.HostReady → 1 ≤ n → n - 1 < s.cfg.lenBound → s.outstanding ≠ some n →
    exec (.readResp (4 * n) k) s = .next { s with fault := some .readMismatch }

/-- I7, the model's reading of a finite `QUEUE_DEPTH` (log 4): an append that would pass the depth is a stuck host
step, in every form that pushes words. -/
def Obligations.FullQueueStalls : Prop :=
  ∀ (a n k : Nat) (p : List Word32) (s : State), s.HostReady → a < s.cfg.addrBound → 1 ≤ n →
    n - 1 < s.cfg.lenBound →
    (s.outstanding = none → roomFor s s.cfg.headWords = false →
      ∀ i ∈ [Instr.readReq a (4 * n), .read a (4 * n) k, .wireRead a n], exec i s = .fault .queueFull) ∧
    (p.length = n → roomFor s (s.cfg.headWords + n) = false →
      ∀ i ∈ [Instr.write a (4 * n) p, .writeChunk a (4 * n) p, .wireWrite a n p],
        exec i s = .fault .queueFull) ∧
    (roomFor s (s.cfg.headWords + 1) = false → exec .startProgram s = .fault .queueFull) ∧
    (roomFor s (2 * (s.cfg.headWords + 1)) = false → exec .reset s = .fault .queueFull)

/-! ## Response decoder -/

/-- One step of `read_resp` that its checks allow (R122): it yields on an empty queue and keeps its buffer; else it
pops one word; the `n`-th word completes the read, and only then is the result written (R123), to its own name and
no other (R27). -/
def Obligations.ReadRespMovesOneWord : Prop :=
  ∀ (n k : Nat) (s : State), s.HostReady → 1 ≤ n → n - 1 < s.cfg.lenBound → s.outstanding = some n →
    (s.inQ = [] → exec (.readResp (4 * n) k) s = .next { s with ctx := .target }) ∧
    (∀ w q, s.inQ = w :: q → s.rdBuf.length + 1 ≠ n →
      exec (.readResp (4 * n) k) s = .next { s with inQ := q, rdBuf := s.rdBuf ++ [w] }) ∧
    (∀ w q, s.inQ = w :: q → s.rdBuf.length + 1 = n →
      exec (.readResp (4 * n) k) s = .next
        { s with
          inQ := q
          results := Table.set k (s.rdBuf ++ [w]) s.results
          rdBuf := []
          outstanding := none
          hpc := s.hpc + 1 }) ∧
    (∀ j ws, resultOf { s with results := Table.set k ws s.results } j = if j = k then some ws else resultOf s j)

/-- R124, E7: with enough words at hand, the steps on a `read_resp` line take exactly the words still missing, in
their order, without a switch, and leave the rest in the queue. -/
def Obligations.ReadRespDrainsExactlyItsWords : Prop :=
  ∀ (n k : Nat) (s : State), s.HostReady → s.PendingReadOk → n - 1 < s.cfg.lenBound →
    s.outstanding = some n → (programLines s)[s.hpc]? = some (.readResp (4 * n) k) →
    n - s.rdBuf.length ≤ s.inQ.length →
    core.run (n - s.rdBuf.length) s = .next
      { s with
        inQ := s.inQ.drop (n - s.rdBuf.length)
        results := Table.set k (s.rdBuf ++ s.inQ.take (n - s.rdBuf.length)) s.results
        rdBuf := []
        outstanding := none
        hpc := s.hpc + 1 }

/-- R87, R128: `read` pushes its READ and then drains as far as one host turn goes: it completes if its words are
already there, else it collects them all and yields on its second line (log 12). -/
def Obligations.ReadRequestsThenDrains : Prop :=
  ∀ (a n k : Nat) (s : State), s.HostReady → a < s.cfg.addrBound → 1 ≤ n → n - 1 < s.cfg.lenBound →
    s.outstanding = none → s.rdBuf = [] → roomFor s s.cfg.headWords = true →
    (n ≤ s.inQ.length →
      exec (.read a (4 * n) k) s = .next
        { s with
          outQ := s.outQ ++ encRead s.cfg a n
          inQ := s.inQ.drop n
          results := Table.set k (s.inQ.take n) s.results
          hpc := s.hpc + 2 }) ∧
    (s.inQ.length < n →
      exec (.read a (4 * n) k) s = .next
        { s with
          outQ := s.outQ ++ encRead s.cfg a n
          inQ := []
          rdBuf := s.inQ
          outstanding := some n
          ctx := .target
          hpc := s.hpc + 1 })

/-- R87, R128: `read` is nothing but the host steps of its two lines. -/
def Obligations.ReadIsItsTwoLines : Prop :=
  ∀ (a b k : Nat) (s : State), s.HostReady → (programLines s)[s.hpc]? = some (.readReq a b) →
    (programLines s)[s.hpc + 1]? = some (.readResp b k) →
    ∃ m, core.run m s = exec (.read a b k) s

/-- R126: while no inbound word arrives, a blocked `read_resp` neither completes, nor gives up, nor faults: after
every turn the host stands on the same line, with the same buffer and results. -/
def Obligations.UnansweredReadWaits : Prop :=
  ∀ (n k : Nat) (ds rest : List Draw) (s : State), s.HostReady → 1 ≤ n → n - 1 < s.cfg.lenBound →
    s.outstanding = some n → (programLines s)[s.hpc]? = some (.readResp (4 * n) k) → s.inQ = [] →
    s.collaborator = .external → s.draws = ds ++ rest → (∀ d ∈ ds, d.inValid = false) →
    ∃ t, core.run (2 * ds.length) s = .next t ∧ t.HostReady ∧ t.hpc = s.hpc ∧ t.rdBuf = s.rdBuf ∧
      t.results = s.results ∧ t.outstanding = s.outstanding ∧ t.inQ = [] ∧ t.draws = rest

/-- R192, E7: a blocked read completes with exactly its missing words, in their order, and takes no word beyond them:
if they arrive along the scripted draws (log 5), `j` of which are used up, in any number of turns; and, whoever
stands behind the channel, under `TargetProgress` (D24, as log 23 reads it), in a state whose books of the reads
balance: `came` are the words that arrived, `ws` those the read took. -/
def Obligations.AnsweredReadCompletes : Prop :=
  ∀ (n k : Nat) (s : State), s.HostReady → s.PendingReadOk → n - 1 < s.cfg.lenBound →
    s.outstanding = some n → (programLines s)[s.hpc]? = some (.readResp (4 * n) k) →
    (s.collaborator = .external → n ≤ s.rdBuf.length + s.inQ.length + (arrivals s.draws).length →
      ∃ m j t, m ≤ n + 2 * s.draws.length ∧ core.run m s = .next t ∧ t.HostReady ∧ t.hpc = s.hpc + 1 ∧
        t.outstanding = none ∧ t.rdBuf = [] ∧
        resultOf t k =
          some (s.rdBuf ++ (s.inQ ++ arrivals s.draws).take (n - s.rdBuf.length)) ∧
        t.inQ = (s.inQ ++ arrivals (s.draws.take j)).drop (n - s.rdBuf.length) ∧ t.draws = s.draws.drop j) ∧
    (s.ReadsBalance → TargetProgress s →
      ∃ m came ws t, core.run m s = .next t ∧ t.HostReady ∧ t.hpc = s.hpc + 1 ∧ t.outstanding = none ∧
        t.rdBuf = [] ∧ resultOf t k = some (s.rdBuf ++ ws) ∧ (s.rdBuf ++ ws).length = n ∧
        t.recvLog = s.recvLog ++ came ∧ s.inQ ++ came = ws ++ t.inQ)

/-! ## Register poke helpers -/

/-- R140, R141: exactly one WRITE of the word 1 to `START_ADDR`, in every state the host may step in, and no other
change; it is `encode_write(START_ADDR, 4, [1])`. -/
def Obligations.StartProgramPokesOnce : Prop :=
  ∀ s : State, s.HostReady → roomFor s (s.cfg.headWords + 1) = true →
    exec .startProgram s = .next
      { s with
        outQ := s.outQ ++
          ([s.cfg.opWrite] ++ chunks s.cfg.addrChunks s.cfg.startAddr ++ chunks s.cfg.lenChunks 0 ++ [1])
        hpc := s.hpc + 1 } ∧
    (s.cfg.wf = true → exec .startProgram s = exec (.write s.cfg.startAddr 4 [1]) s)

/-- R143, R222: two WRITEs of the word 0, to `RESET_ADDR_FIRST` and then `RESET_ADDR_SECOND`, in one host step, and
no other change. -/
def Obligations.ResetPokesTwice : Prop :=
  ∀ s : State, s.HostReady → roomFor s (2 * (s.cfg.headWords + 1)) = true →
    exec .reset s = .next
      { s with
        outQ := s.outQ ++
          ([s.cfg.opWrite] ++ chunks s.cfg.addrChunks s.cfg.resetFirst ++ chunks s.cfg.lenChunks 0 ++ [0]) ++
          ([s.cfg.opWrite] ++ chunks s.cfg.addrChunks s.cfg.resetSecond ++ chunks s.cfg.lenChunks 0 ++ [0])
        hpc := s.hpc + 1 }

/-! ## Channel interface -/

/-- R161: the offer shows the front word, or nothing, and changes no state (C1). -/
def Obligations.OfferChangesNothing : Prop :=
  ∀ s : State, s.TargetReady →
    exec .offerOutboundWord s = .next s ∧ outBits s = s.outQ.head? ∧ (outValid s = true ↔ s.outQ ≠ [])

/-- R162: an inbound word is appended to the queue and the log, whether or not a read is outstanding. -/
def Obligations.AcceptAppendsTheWord : Prop :=
  ∀ (w : Word32) (s : State), s.TargetReady →
    exec (.acceptInboundWord w) s = .next { s with inQ := s.inQ ++ [w], recvLog := s.recvLog ++ [w] }

/-- R166 with R163 and R164: the front word leaves exactly when it is offered and accepted; a word arrives exactly
when it is valid; at most one of each, and nothing else changes. -/
def Obligations.ChannelStepIsTwoHandshakes : Prop :=
  ∀ (v : Bool) (w : Word32) (s : State), s.TargetReady →
    let arrived : List Word32 := if v then [w] else []
    (∀ x q, s.outQ = x :: q →
      exec (.channelStep true v w) s = .next
        { s with outQ := q, sentLog := s.sentLog ++ [x], inQ := s.inQ ++ arrived,
                 recvLog := s.recvLog ++ arrived }) ∧
    (s.outQ = [] →
      exec (.channelStep true v w) s = .next
        { s with inQ := s.inQ ++ arrived, recvLog := s.recvLog ++ arrived }) ∧
    exec (.channelStep false v w) s = .next
      { s with inQ := s.inQ ++ arrived, recvLog := s.recvLog ++ arrived }

/-- R81, R125 (log 10): the words of a response arrive in order, unframed and unchecked: the response is its words
accepted one after the other. -/
def Obligations.ResponseArrivesUnframed : Prop :=
  ∀ (ws : List Word32) (s : State), s.TargetReady →
    exec (.readResponse ws) s = .next { s with inQ := s.inQ ++ ws, recvLog := s.recvLog ++ ws } ∧
    ∀ w, ∃ t, exec (.readResponse ws) s = .next t ∧
      exec (.readResponse (ws ++ [w])) s = exec (.acceptInboundWord w) t

/-! ## Scheduler -/

/-- R184: one switch to the target and one move on, and nothing else. -/
def Obligations.YieldSwitches : Prop :=
  ∀ s : State, s.HostReady → exec .yield s = .next { s with ctx := .target, hpc := s.hpc + 1 }

/-- R186: an idle host only switches; with an operation left there is no idle step. -/
def Obligations.IdleOnlySwitches : Prop :=
  ∀ s : State, s.HostReady →
    ((programLines s).length ≤ s.hpc → exec .idle s = .next { s with ctx := .target }) ∧
    (s.hpc < (programLines s).length → exec .idle s = .fault .notIdle)

/-- R185: a target turn is its channel step and then the switch back to the host. With an external collaborator the
reference target's record is untouched. With the reference target, a draw that R246 would not choose runs as it is
given (log 30). -/
def Obligations.TargetTurnIsChannelStepThenSwitch : Prop :=
  ∀ (r v : Bool) (w : Word32) (s : State), s.TargetReady →
    ∃ t, exec (.channelStep r v w) s = .next t ∧
      exec (.targetTurn r v w) s = .next
        { t with
          ctx := .host
          draws := s.draws.tail
          turns := s.turns + 1
          target :=
            if s.collaborator = .external then s.target
            else refAfterTurn s.cfg v (if r then s.outQ.head? else none) s.target }

/-- R182, R185, R187: a step runs the operation at `hpc`; past the last one, `idle`; in the target context, a turn
with its draw. Nothing stands around `exec`. -/
def Obligations.StepRunsTheSelectedOperation : Prop :=
  ∀ s : State,
    (∀ i, s.ctx = .host → (programLines s)[s.hpc]? = some i → step s = exec i s) ∧
    (s.ctx = .host → (programLines s).length ≤ s.hpc → step s = exec .idle s) ∧
    (∀ r v w rest, s.ctx = .target → s.collaborator = .external → s.draws = ⟨r, v, w⟩ :: rest →
      step s = exec (.targetTurn r v w) s) ∧
    (s.ctx = .target → s.collaborator = .external → s.draws = [] →
      ∃ r v w, step s = exec (.targetTurn r v w) s)

/-- The table's own fetch (log 1): a row's bits loaded as the program are the next instruction run. -/
def Obligations.LoadedWordRunsNext : Prop :=
  ∀ (nbits w : Nat) (i : Instr) (s : State), decodeTableWordAt s.cfg nbits w = some i →
    step (s.withFetchWord nbits w) = exec i (s.withFetchWord nbits w) ∧
    (s.withFetchWord nbits w).outQ = s.outQ ∧ (s.withFetchWord nbits w).fault = s.fault ∧
    (s.withFetchWord nbits w).outstanding = s.outstanding

/-- R183: the host gives up its turn in exactly three cases: a matched `read_resp` on an empty queue, a `yield`, and
an idle step. -/
def Obligations.HostSwitchesInThreeCases : Prop :=
  ∀ s : State, s.HostReady →
    ((∃ t, step s = .next t ∧ t.ctx = .target) ↔
      (∃ b k n, (programLines s)[s.hpc]? = some (.readResp b k) ∧ checkLen s.cfg b = .ok n ∧
        s.outstanding = some n ∧ s.inQ = []) ∨
      (programLines s)[s.hpc]? = some .yield ∨
      (programLines s).length ≤ s.hpc)

/-- R185, R181: every target turn gives control back, and the host's own state is as it was. -/
def Obligations.TargetTurnReturnsToHost : Prop :=
  ∀ s : State, s.TargetReady →
    ∃ t, step s = .next t ∧ t.HostReady ∧ t.hpc = s.hpc ∧ t.outstanding = s.outstanding ∧
      t.rdBuf = s.rdBuf ∧ t.results = s.results ∧ t.prog = s.prog ∧ t.cfg = s.cfg

/-- R188: a host turn ends within `|prog| − hpc + |inQ| + 1` steps, in the target context or in a fault. The queue
is unbounded and the program holds host operations, as R21 and R84 have it. -/
def Obligations.HostTurnIsFinite : Prop :=
  ∀ s : State, s.HostReady → s.cfg.queueDepth = none → programWf s.prog = true →
    ∃ k t, k ≤ (programLines s).length - s.hpc + s.inQ.length + 1 ∧ core.run k s = .next t ∧
      (t.ctx = .target ∨ t.fault ≠ none)

/-- R193: the Outbound Queue of a host that is idle, or blocked in a read that the words to come do not complete,
drains, in order, once the channel has accepted as many words as it held. The turns are scripted draws (log 5). -/
def Obligations.IdleQueueDrains : Prop :=
  ∀ (ds rest : List Draw) (s : State), s.HostReady → s.collaborator = .external → s.draws = ds ++ rest →
    s.outQ.length ≤ (ds.filter (·.outReady)).length →
    (s.AtIdle →
      ∃ t, core.run (2 * ds.length) s = .next t ∧ t.outQ = [] ∧ t.sentLog = s.sentLog ++ s.outQ ∧ t.AtIdle ∧
        t.draws = rest) ∧
    (∀ n k, n - 1 < s.cfg.lenBound → s.outstanding = some n →
      (programLines s)[s.hpc]? = some (.readResp (4 * n) k) →
      s.rdBuf.length + s.inQ.length + (arrivals ds).length < n →
      ∃ m t, m ≤ s.inQ.length + 3 * ds.length ∧ core.run m s = .next t ∧ t.outQ = [] ∧
        t.sentLog = s.sentLog ++ s.outQ ∧ t.HostReady ∧ t.hpc = s.hpc ∧ t.outstanding = some n ∧
        t.results = s.results ∧ t.draws = rest)

/-! ## Faults -/

/-- R211, R187: a faulted state has no step, whatever is run. -/
def Obligations.FaultedStateHasNoStep : Prop :=
  ∀ (i : Instr) (c : FaultCode) (s : State), s.fault = some c →
    exec i s = .fault (.halted c) ∧ step s = .fault (.halted c)

/-- R210: a step that raises a fault records the code and discards every other write. -/
def Obligations.FaultDiscardsTheStep : Prop :=
  ∀ (i : Instr) (c : FaultCode) (s t : State), s.fault = none → exec i s = .next t → t.fault = some c →
    t = { s with fault := some c } ∧ s.ctx = .host

/-- R208: no step puts `IllegalCommand` into the block's own `fault`. -/
def Obligations.IllegalCommandIsNeverTheBlocks : Prop :=
  ∀ (i : Instr) (s t : State), exec i s = .next t → t.fault ≠ some .illegalCommand

/-- R182, R185, R235 (log 8): an operation of one context is not enabled while the other runs. -/
def Obligations.OutOfTurnHasNoStep : Prop :=
  ∀ (a b k : Nat) (p : List Word32) (r v : Bool) (w : Word32) (s : State), s.fault = none →
    (s.ctx = .target →
      ∀ i ∈ [Instr.readReq a b, .write a b p, .writeChunk a b p, .readResp b k, .read a b k, .startProgram,
        .reset, .yield, .idle], exec i s = .fault .outOfTurn) ∧
    (s.ctx = .host →
      ∀ i ∈ [Instr.readResponse p, .offerOutboundWord, .acceptInboundWord w, .channelStep r v w,
        .targetTurn r v w], exec i s = .fault .outOfTurn)

/-! ## The whole machine -/

/-- R39, R220: the state after power-on. -/
def Obligations.PowerOnState : Prop :=
  State.reset.outQ = [] ∧ State.reset.inQ = [] ∧ State.reset.ctx = .host ∧ State.reset.hpc = 0 ∧
  State.reset.outstanding = none ∧ State.reset.rdBuf = [] ∧ (∀ b, resultOf State.reset b = none) ∧
  State.reset.fault = none ∧ State.reset.sentLog = [] ∧ State.reset.recvLog = [] ∧
  outValid State.reset = false ∧ inReady State.reset = true ∧ outBits State.reset = none

/-- R38 (i) to (iii), with the canonical forms of the model's tables and the reference target's record: every step
keeps the invariant, from every state that has it. Every step keeps the books of the reads too (R25, R26, R38 (vi)). -/
def Obligations.InvariantIsKept : Prop :=
  ∀ s t : State, step s = .next t →
    (s.Inv → t.Inv) ∧ (s.cfg.wf = true → s.ReadsBalance → t.ReadsBalance)

/-- The invariant and the books of the reads hold at power-on. -/
def Obligations.InvariantAtReset : Prop := State.reset.Inv ∧ State.reset.ReadsBalance

/-- R38 (v), R63, R64: along every run the words sent and the words still queued are the words pushed, in push order:
none lost, doubled or reordered. -/
def Obligations.OutboundQueueIsFifo : Prop :=
  ∀ (k : Nat) (s t : State), core.run k s = .next t →
    t.sentLog ++ t.outQ = s.sentLog ++ s.outQ ++ pushedAlong k s

/-- R38 (vi), R63: along every run the words received are the words `read_result` popped, in pop order, and then the
Inbound Queue. -/
def Obligations.InboundQueueIsFifo : Prop :=
  ∀ (k : Nat) (before : List Word32) (s t : State), s.recvLog = before ++ s.inQ → core.run k s = .next t →
    t.recvLog = before ++ poppedAlong k s ++ t.inQ

/-- R21, R22, R23, R235: in the host context words only join `outQ` and leave `inQ`; in the target context they only
leave `outQ` and join `inQ`, at most one of each; the logs only grow. -/
def Obligations.EachContextMovesItsOwnWay : Prop :=
  ∀ s t : State, step s = .next t →
    (s.ctx = .host → s.outQ <+: t.outQ ∧ t.inQ <:+ s.inQ ∧ t.sentLog = s.sentLog ∧ t.recvLog = s.recvLog) ∧
    (s.ctx = .target → t.outQ <:+ s.outQ ∧ s.inQ <+: t.inQ ∧ s.outQ.length ≤ t.outQ.length + 1 ∧
      t.inQ.length ≤ s.inQ.length + 1 ∧ s.sentLog <+: t.sentLog ∧ s.recvLog <+: t.recvLog)

/-- R102: only the forms that run `encode_read` set a read outstanding, and only when none was. That the READ row is
one of them is the model's choice (log 9). -/
def Obligations.OnlyEncodeReadSetsOutstanding : Prop :=
  ∀ (i : Instr) (s t : State), exec i s = .next t → t.outstanding ≠ none → t.outstanding ≠ s.outstanding →
    s.outstanding = none ∧
    ((∃ a b, i = .readReq a b) ∨ (∃ a b k, i = .read a b k) ∨ (∃ a n, i = .wireRead a n))

/-- R7, R182, D30: no instruction changes the parameters or the program. -/
def Obligations.ProgramAndParametersAreFixed : Prop :=
  ∀ (i : Instr) (s t : State), exec i s = .next t → t.cfg = s.cfg ∧ t.prog = s.prog

/-- R120, R167: what the block does never depends on the value of a word received: two states that differ in such
values only stay so, step for step. -/
def Obligations.InboundValuesSteerNothing : Prop :=
  ∀ s s' t : State, SameButInboundValues s s' → step s = .next t →
    ∃ t', step s' = .next t' ∧ SameButInboundValues t t'

/-! ## Encoding -/

/-- R11, R75: the chunks of a value are its 32-bit fields, least significant first, and give the value back; and
every list of words is the chunks of its value. -/
def Obligations.ChunksReassemble : Prop :=
  (∀ K v : Nat, v < 2 ^ (32 * K) → unchunk (chunks K v) = v) ∧
  (∀ K v k : Nat, k < K → (chunks K v)[k]? = some (BitVec.ofNat 32 (v / 2 ^ (32 * k)))) ∧
  (∀ ws : List Word32, chunks ws.length (unchunk ws) = ws ∧ unchunk ws < 2 ^ (32 * ws.length))

/-- R79, R80, R81: every well-formed command, and every reserved header, is read back from its words, with every
operand, whatever follows it; a response is read back by a receiver that knows its count. -/
def Obligations.DecodeInvertsEncode : Prop :=
  ∀ (c : Params) (i : Instr) (rest : List Word32), c.wf = true → i.wf c = true →
    (i.hasHeader = true → decode c (encode c i ++ rest) = .ok (i, rest)) ∧
    (∀ ws, i = .readResponse ws → decodeResponse ws.length (encode c i ++ rest) = .ok (i, rest))

/-- R79: `enc` is injective on well-formed commands, also as beginnings of a stream. -/
def Obligations.EncodingIsInjective : Prop :=
  ∀ (c : Params) (x y : Command), c.wf = true → commandWf c x = true → commandWf c y = true →
    encCommand c x <+: encCommand c y → x = y

/-- R243: the stream parser inverts the encoder on every stream of well-formed commands; on a proper beginning of a
command it completes none, and expects a header only at its start. -/
def Obligations.ParserInvertsEncoder : Prop :=
  ∀ c : Params, c.wf = true →
    (∀ cmds : List Command, (∀ x ∈ cmds, commandWf c x = true) →
      parseStream c (cmds.flatMap (encCommand c)) = .ok (cmds, .hdr)) ∧
    (∀ (x : Command) (ws : List Word32), commandWf c x = true → ws <+: encCommand c x →
      ws ≠ encCommand c x → ∃ ph, parseStream c ws = .ok ([], ph) ∧ (ph = .hdr ↔ ws = []))

/-- A few words written out from R72, R73 and R82 with the default parameters (PRESUMED, log 2), and each form of a
line of text of R84 to R88, read as the operation it is. That blanks before a line's operation and before its comment
count for nothing is the model's choice (log 16): R84 shows no such line. -/
def Obligations.WrittenFormsAreRead : Prop :=
  decode Params.default [0, 0x1000, 0, 1, 0] = .ok (.wireRead 0x1000 2, []) ∧
  decode Params.default [1, 0x9ABCDEF0, 0x12345678, 2, 0, 0xA, 0xB, 0xC] =
    .ok (.wireWrite 0x123456789ABCDEF0 3 [0xA, 0xB, 0xC], []) ∧
  decode Params.default [7, 0] = .ok (.reservedHeader 7, [0]) ∧
  parseLine "read_req 0x1000, 8".toList = .ok (some (.readReq 0x1000 8)) ∧
  parseLine "write 4_096, 8, [0xAAAAAAAA, 2]  ; two words".toList =
    .ok (some (.write 4096 8 [0xAAAAAAAA, 2])) ∧
  parseLine "write_chunk 0, 0, []".toList = .ok (some (.writeChunk 0 0 [])) ∧
  parseLine "read_resp 8 -> b3".toList = .ok (some (.readResp 8 3)) ∧
  parseLine "read 0x10, 4 -> b0".toList = .ok (some (.read 0x10 4 0)) ∧
  parseLine "start_program".toList = .ok (some .startProgram) ∧
  parseLine "  reset".toList = .ok (some .reset) ∧
  parseLine "yield".toList = .ok (some .yield) ∧
  parseLine "write 0, 4, [0x100000000]".toList = .error .wideWord

/-- R54, D16 (log 17): packing host bytes into words, little-endian, loses and adds nothing, and
byte `4k+j` is bits `8j+7` to `8j` of word `k`. -/
def Obligations.BytePackingInverts : Prop :=
  (∀ ws : List Word32, packBytes (unpackBytes ws) = some ws) ∧
  (∀ (bs : List Byte) (ws : List Word32), packBytes bs = some ws → unpackBytes ws = bs) ∧
  (∀ bs : List Byte, bs.length % 4 = 0 → ∃ ws, packBytes bs = some ws ∧ bs.length = 4 * ws.length) ∧
  (∀ (ws : List Word32) (k j : Nat), j < 4 →
    (unpackBytes ws)[4 * k + j]? = ws[k]?.map fun w => w.extractLsb' (8 * j) 8)

/-! ## The reference target -/

/-- R249 (log 9; on an ill-formed row, log 27; at a stopped target, log 28): at the reference target READ answers with
the words at `a`, `a + 4`, and so on modulo `2^(32·A)`, and changes nothing but what waits to be sent. -/
def Obligations.TargetReadAnswers : Prop :=
  ∀ (a n : Nat) (s : State), s.TargetReady → s.collaborator = .reference →
    exec (.wireRead a n) s = .next
      { s with
        target :=
          { s.target with
            tx := s.target.tx ++
              (List.range n).map fun k => Memory.read s.target.mem ((a + 4 * k) % 2 ^ (32 * s.cfg.addrChunks)) } }

/-- R248 (log 9; on an ill-formed row, log 27; at a stopped target, log 28): at the reference target WRITE stores its
words in order, word `k` at `a + 4k` modulo `2^(32·A)`; every other address reads as before, and nothing but the
memory changes. -/
def Obligations.TargetWriteStores : Prop :=
  ∀ (a n : Nat) (p : List Word32) (s : State), s.TargetReady → s.collaborator = .reference →
    Memory.wf s.target.mem → p.length = n →
    ∃ m, exec (.wireWrite a n p) s = .next { s with target := { s.target with mem := m } } ∧ Memory.wf m ∧
      Memory.read m = p.zipIdx.foldl
        (fun cells e => Function.update cells ((a + 4 * e.2) % 2 ^ (32 * s.cfg.addrChunks)) e.1)
        (Memory.read s.target.mem)

/-- R248, R249 (log 9; on an ill-formed row, log 27; at a stopped target, log 28): words written to the reference
target are what it answers with, while the transfer does not come round to its own first address (log 24). -/
def Obligations.TargetEchoesAPayload : Prop :=
  ∀ (a n : Nat) (p : List Word32) (s : State), s.TargetReady → s.collaborator = .reference →
    Memory.wf s.target.mem → p.length = n → 4 * n ≤ s.cfg.addrBound →
    ∃ t u, exec (.wireWrite a n p) s = .next t ∧ exec (.wireRead a n) t = .next u ∧
      u.target.tx = s.target.tx ++ p

/-- R82, R208, R242, R250, I3 (log 11): a reserved header stops the reference target with `IllegalCommand` in
`tfault` and leaves the block alone; elsewhere it has no meaning. That the row puts the parser into `Hdr` first, from
whatever phase, and acts on a target that has stopped too, is the model's choice (log 11, log 28). -/
def Obligations.ReservedHeaderStopsTheTarget : Prop :=
  ∀ (w : Word32) (s : State), w ≠ s.cfg.opRead → w ≠ s.cfg.opWrite →
    (s.TargetReady → s.collaborator = .reference →
      exec (.reservedHeader w) s = .next
        { s with target := { s.target with phase := .hdr, tfault := some .illegalCommand } }) ∧
    (s.TargetReady → s.collaborator = .external → exec (.reservedHeader w) s = .refused .reservedHeader) ∧
    (s.HostReady → exec (.reservedHeader w) s = .refused .reservedHeader)

/-- R4(b), I16 (log 9): what an external target does with a command has no meaning here. -/
def Obligations.ExternalTargetIsUnspecified : Prop :=
  ∀ (a n : Nat) (p : List Word32) (s : State), s.TargetReady → s.collaborator = .external →
    exec (.wireRead a n) s = .refused .targetUnspecified ∧
    exec (.wireWrite a n p) s = .refused .targetUnspecified

/-- R246, R250: the reference target accepts every word and offers its oldest response word; once stopped, it does
neither, and no turn moves a word. -/
def Obligations.ReferenceTargetDraws : Prop :=
  ∀ s : State, s.TargetReady → s.collaborator = .reference →
    (∀ w ws, s.target.tfault = none → s.target.tx = w :: ws → step s = exec (.targetTurn true true w) s) ∧
    (s.target.tfault = none → s.target.tx = [] → step s = exec (.targetTurn true false 0) s) ∧
    (s.target.tfault ≠ none → ∃ t, step s = .next t ∧ t.outQ = s.outQ ∧ t.inQ = s.inQ ∧
      t.sentLog = s.sentLog ∧ t.recvLog = s.recvLog ∧ t.target = s.target)

/-- R250, R82, R243: with the reference target attached, the wire stays whole commands, the parser stands where the
words sent lead, and no illegal header ever reaches it: every step keeps this. -/
def Obligations.WireStaysInStep : Prop :=
  ∀ s t : State, s.WireInStep → step s = .next t → t.WireInStep

/-- R251, D22: with the reference target attached, what it sent and still has to send are the answers to the
commands it received, executed in wire order: every step keeps this. -/
def Obligations.EchoStaysInStep : Prop :=
  ∀ (m0 : Memory) (s t : State), s.WireInStep → s.EchoInStep m0 → step s = .next t → t.EchoInStep m0

/-- R251, D22, D24 (log 23): from power-on, with any parameters, any program and any first memory, the reference
target is honest at every state of the run, and it makes progress: an owed word always comes, unless the block stops. -/
def Obligations.ReferenceTargetIsHonest : Prop :=
  ∀ (c : Params) (prog : List Instr) (m0 : Memory), c.wf = true →
    let s : State :=
      { State.reset with
        cfg := c
        prog := prog
        collaborator := .reference
        target := { RefTarget.initial with mem := m0 } }
    TargetHonest m0 s ∧ TargetProgress s
end

