-- ==== Sys2Proof/Laws/Coding.lean ====
section
/-! SUPPORT. The lengths of chunk lists and of encoded commands, and how a stream splits. -/

namespace Sys2Proof

@[simp] theorem chunks_length (k v : Nat) : (chunks k v).length = k := by
  induction k generalizing v with
  | zero => rfl
  | succ k ih => simp [chunks, ih]

/-- A READ is `1 + A + L` words long (R72). -/
@[simp] theorem encRead_length (c : Params) (a n : Nat) : (encRead c a n).length = c.headWords := by
  simp [encRead, Params.headWords]
  omega

/-- A WRITE is `1 + A + L` words and its payload long (R73). -/
@[simp] theorem encWrite_length (c : Params) (a n : Nat) (p : List Word32) :
    (encWrite c a n p).length = c.headWords + p.length := by
  simp [encWrite, Params.headWords]
  omega

theorem splitWords_append (front rest : List Word32) :
    splitWords (front ++ rest) front.length = some (front, rest) := by
  induction front with
  | nil => cases rest <;> rfl
  | cons w front ih => simp [splitWords, ih]

theorem splitWords_append_of_length {front : List Word32} {k : Nat} (h : front.length = k)
    (rest : List Word32) : splitWords (front ++ rest) k = some (front, rest) := by
  rw [← h]
  exact splitWords_append front rest

theorem Params.wf_iff {c : Params} :
    c.wf = true ↔ c.opRead ≠ c.opWrite ∧ 1 ≤ c.addrChunks ∧ 1 ≤ c.lenChunks ∧ c.startAddr < c.addrBound ∧
      c.resetFirst < c.addrBound ∧ c.resetSecond < c.addrBound := by
  simp [Params.wf, and_assoc]

/-- The default parameters are well formed, whatever the OPEN addresses are. -/
theorem Params.default_wf : Params.default.wf = true := by
  have h : Params.default.addrBound = 2 ^ 64 := rfl
  rw [Params.wf_iff]
  refine ⟨by decide, by decide, by decide, ?_, ?_, ?_⟩ <;> rw [h] <;> exact BitVec.isLt _

end Sys2Proof

namespace Sys2Proof.Machine

theorem commandWf_read {c : Params} {a n : Nat} :
    commandWf c (.read a n) = true ↔ a < c.addrBound ∧ 1 ≤ n ∧ n ≤ c.lenBound := by
  simp [commandWf, and_assoc]

theorem commandWf_write {c : Params} {a n : Nat} {p : List Word32} :
    commandWf c (.write a n p) = true ↔ a < c.addrBound ∧ 1 ≤ n ∧ n ≤ c.lenBound ∧ p.length = n := by
  simp [commandWf, and_assoc]

/-- A command is well formed exactly when its wire row is. -/
theorem instrOfCommand_wf (c : Params) (x : Command) : (instrOfCommand x).wf c = commandWf c x := by
  cases x <;> rfl

/-- A command's words are its wire row's. -/
theorem encode_instrOfCommand (c : Params) (x : Command) : encode c (instrOfCommand x) = encCommand c x := by
  cases x <;> rfl

theorem parseFrom_append (c : Params) (ph : Phase) (xs ys : List Word32) :
    parseFrom c ph (xs ++ ys) =
      match parseFrom c ph xs with
      | .error e => .error e
      | .ok (done, mid) =>
        match parseFrom c mid ys with
        | .error e => .error e
        | .ok (more, last) => .ok (done ++ more, last) := by
  induction xs generalizing ph with
  | nil =>
    simp only [List.nil_append, parseFrom]
    cases parseFrom c ph ys with
    | error e => rfl
    | ok r => simp
  | cons x xs ih =>
    simp only [List.cons_append, parseFrom]
    cases parseWord c ph x with
    | error e => rfl
    | ok r =>
      obtain ⟨ph', done⟩ := r
      simp only [ih]
      cases parseFrom c ph' xs with
      | error e => rfl
      | ok r =>
        obtain ⟨d, mid⟩ := r
        dsimp only
        cases parseFrom c mid ys with
        | error e => rfl
        | ok r => simp

end Sys2Proof.Machine
end

