-- ==== Sys2Proof/Laws/State.lean ====
section
/-! SUPPORT. The fields of every named update of the state: one lemma per field per update, true by rfl, so that no
later proof unfolds a record update. -/

namespace Sys2Proof.Machine

@[simp] theorem switchTo_outQ (c : Ctx) (s : State) : (switchTo c s).outQ = s.outQ := rfl
@[simp] theorem switchTo_inQ (c : Ctx) (s : State) : (switchTo c s).inQ = s.inQ := rfl
@[simp] theorem switchTo_ctx (c : Ctx) (s : State) : (switchTo c s).ctx = c := rfl
@[simp] theorem switchTo_hpc (c : Ctx) (s : State) : (switchTo c s).hpc = s.hpc := rfl
@[simp] theorem switchTo_outstanding (c : Ctx) (s : State) : (switchTo c s).outstanding = s.outstanding := rfl
@[simp] theorem switchTo_rdBuf (c : Ctx) (s : State) : (switchTo c s).rdBuf = s.rdBuf := rfl
@[simp] theorem switchTo_results (c : Ctx) (s : State) : (switchTo c s).results = s.results := rfl
@[simp] theorem switchTo_fault (c : Ctx) (s : State) : (switchTo c s).fault = s.fault := rfl
@[simp] theorem switchTo_sentLog (c : Ctx) (s : State) : (switchTo c s).sentLog = s.sentLog := rfl
@[simp] theorem switchTo_recvLog (c : Ctx) (s : State) : (switchTo c s).recvLog = s.recvLog := rfl
@[simp] theorem switchTo_cfg (c : Ctx) (s : State) : (switchTo c s).cfg = s.cfg := rfl
@[simp] theorem switchTo_prog (c : Ctx) (s : State) : (switchTo c s).prog = s.prog := rfl
@[simp] theorem switchTo_collaborator (c : Ctx) (s : State) : (switchTo c s).collaborator = s.collaborator := rfl
@[simp] theorem switchTo_draws (c : Ctx) (s : State) : (switchTo c s).draws = s.draws := rfl
@[simp] theorem switchTo_turns (c : Ctx) (s : State) : (switchTo c s).turns = s.turns := rfl
@[simp] theorem switchTo_target (c : Ctx) (s : State) : (switchTo c s).target = s.target := rfl

@[simp] theorem advance_outQ (s : State) : (advance s).outQ = s.outQ := rfl
@[simp] theorem advance_inQ (s : State) : (advance s).inQ = s.inQ := rfl
@[simp] theorem advance_ctx (s : State) : (advance s).ctx = s.ctx := rfl
@[simp] theorem advance_hpc (s : State) : (advance s).hpc = s.hpc + 1 := rfl
@[simp] theorem advance_outstanding (s : State) : (advance s).outstanding = s.outstanding := rfl
@[simp] theorem advance_rdBuf (s : State) : (advance s).rdBuf = s.rdBuf := rfl
@[simp] theorem advance_results (s : State) : (advance s).results = s.results := rfl
@[simp] theorem advance_fault (s : State) : (advance s).fault = s.fault := rfl
@[simp] theorem advance_sentLog (s : State) : (advance s).sentLog = s.sentLog := rfl
@[simp] theorem advance_recvLog (s : State) : (advance s).recvLog = s.recvLog := rfl
@[simp] theorem advance_cfg (s : State) : (advance s).cfg = s.cfg := rfl
@[simp] theorem advance_prog (s : State) : (advance s).prog = s.prog := rfl
@[simp] theorem advance_collaborator (s : State) : (advance s).collaborator = s.collaborator := rfl
@[simp] theorem advance_draws (s : State) : (advance s).draws = s.draws := rfl
@[simp] theorem advance_turns (s : State) : (advance s).turns = s.turns := rfl
@[simp] theorem advance_target (s : State) : (advance s).target = s.target := rfl

@[simp] theorem acceptWord_outQ (w : Word32) (s : State) : (acceptWord w s).outQ = s.outQ := rfl
@[simp] theorem acceptWord_inQ (w : Word32) (s : State) : (acceptWord w s).inQ = s.inQ ++ [w] := rfl
@[simp] theorem acceptWord_ctx (w : Word32) (s : State) : (acceptWord w s).ctx = s.ctx := rfl
@[simp] theorem acceptWord_hpc (w : Word32) (s : State) : (acceptWord w s).hpc = s.hpc := rfl
@[simp] theorem acceptWord_outstanding (w : Word32) (s : State) : (acceptWord w s).outstanding = s.outstanding := rfl
@[simp] theorem acceptWord_rdBuf (w : Word32) (s : State) : (acceptWord w s).rdBuf = s.rdBuf := rfl
@[simp] theorem acceptWord_results (w : Word32) (s : State) : (acceptWord w s).results = s.results := rfl
@[simp] theorem acceptWord_fault (w : Word32) (s : State) : (acceptWord w s).fault = s.fault := rfl
@[simp] theorem acceptWord_sentLog (w : Word32) (s : State) : (acceptWord w s).sentLog = s.sentLog := rfl
@[simp] theorem acceptWord_recvLog (w : Word32) (s : State) : (acceptWord w s).recvLog = s.recvLog ++ [w] := rfl
@[simp] theorem acceptWord_cfg (w : Word32) (s : State) : (acceptWord w s).cfg = s.cfg := rfl
@[simp] theorem acceptWord_prog (w : Word32) (s : State) : (acceptWord w s).prog = s.prog := rfl
@[simp] theorem acceptWord_collaborator (w : Word32) (s : State) : (acceptWord w s).collaborator = s.collaborator := rfl
@[simp] theorem acceptWord_draws (w : Word32) (s : State) : (acceptWord w s).draws = s.draws := rfl
@[simp] theorem acceptWord_turns (w : Word32) (s : State) : (acceptWord w s).turns = s.turns := rfl
@[simp] theorem acceptWord_target (w : Word32) (s : State) : (acceptWord w s).target = s.target := rfl

@[simp] theorem endTurn_outQ (v : Bool) (sent : Option Word32) (s : State) : (endTurn v sent s).outQ = s.outQ := rfl
@[simp] theorem endTurn_inQ (v : Bool) (sent : Option Word32) (s : State) : (endTurn v sent s).inQ = s.inQ := rfl
@[simp] theorem endTurn_ctx (v : Bool) (sent : Option Word32) (s : State) : (endTurn v sent s).ctx = .host := rfl
@[simp] theorem endTurn_hpc (v : Bool) (sent : Option Word32) (s : State) : (endTurn v sent s).hpc = s.hpc := rfl
@[simp] theorem endTurn_outstanding (v : Bool) (sent : Option Word32) (s : State) : (endTurn v sent s).outstanding = s.outstanding := rfl
@[simp] theorem endTurn_rdBuf (v : Bool) (sent : Option Word32) (s : State) : (endTurn v sent s).rdBuf = s.rdBuf := rfl
@[simp] theorem endTurn_results (v : Bool) (sent : Option Word32) (s : State) : (endTurn v sent s).results = s.results := rfl
@[simp] theorem endTurn_fault (v : Bool) (sent : Option Word32) (s : State) : (endTurn v sent s).fault = s.fault := rfl
@[simp] theorem endTurn_sentLog (v : Bool) (sent : Option Word32) (s : State) : (endTurn v sent s).sentLog = s.sentLog := rfl
@[simp] theorem endTurn_recvLog (v : Bool) (sent : Option Word32) (s : State) : (endTurn v sent s).recvLog = s.recvLog := rfl
@[simp] theorem endTurn_cfg (v : Bool) (sent : Option Word32) (s : State) : (endTurn v sent s).cfg = s.cfg := rfl
@[simp] theorem endTurn_prog (v : Bool) (sent : Option Word32) (s : State) : (endTurn v sent s).prog = s.prog := rfl
@[simp] theorem endTurn_collaborator (v : Bool) (sent : Option Word32) (s : State) : (endTurn v sent s).collaborator = s.collaborator := rfl
@[simp] theorem endTurn_draws (v : Bool) (sent : Option Word32) (s : State) : (endTurn v sent s).draws = s.draws.tail := rfl
@[simp] theorem endTurn_turns (v : Bool) (sent : Option Word32) (s : State) : (endTurn v sent s).turns = s.turns + 1 := rfl

@[simp] theorem loadOne_outQ (i : Instr) (s : State) : (loadOne i s).outQ = s.outQ := rfl
@[simp] theorem loadOne_inQ (i : Instr) (s : State) : (loadOne i s).inQ = s.inQ := rfl
@[simp] theorem loadOne_ctx (i : Instr) (s : State) : (loadOne i s).ctx = .host := rfl
@[simp] theorem loadOne_hpc (i : Instr) (s : State) : (loadOne i s).hpc = 0 := rfl
@[simp] theorem loadOne_outstanding (i : Instr) (s : State) : (loadOne i s).outstanding = s.outstanding := rfl
@[simp] theorem loadOne_rdBuf (i : Instr) (s : State) : (loadOne i s).rdBuf = s.rdBuf := rfl
@[simp] theorem loadOne_results (i : Instr) (s : State) : (loadOne i s).results = s.results := rfl
@[simp] theorem loadOne_fault (i : Instr) (s : State) : (loadOne i s).fault = s.fault := rfl
@[simp] theorem loadOne_sentLog (i : Instr) (s : State) : (loadOne i s).sentLog = s.sentLog := rfl
@[simp] theorem loadOne_recvLog (i : Instr) (s : State) : (loadOne i s).recvLog = s.recvLog := rfl
@[simp] theorem loadOne_cfg (i : Instr) (s : State) : (loadOne i s).cfg = s.cfg := rfl
@[simp] theorem loadOne_prog (i : Instr) (s : State) : (loadOne i s).prog = [i] := rfl
@[simp] theorem loadOne_collaborator (i : Instr) (s : State) : (loadOne i s).collaborator = s.collaborator := rfl
@[simp] theorem loadOne_draws (i : Instr) (s : State) : (loadOne i s).draws = s.draws := rfl
@[simp] theorem loadOne_turns (i : Instr) (s : State) : (loadOne i s).turns = s.turns := rfl
@[simp] theorem loadOne_target (i : Instr) (s : State) : (loadOne i s).target = s.target := rfl

theorem endTurn_target (v : Bool) (sent : Option Word32) (s : State) :
    (endTurn v sent s).target =
      match s.collaborator with
      | .external => s.target
      | .reference => refAfterTurn s.cfg v sent s.target := rfl

@[simp] theorem programLines_switchTo (c : Ctx) (s : State) : programLines (switchTo c s) = programLines s := rfl
@[simp] theorem programLines_advance (s : State) : programLines (advance s) = programLines s := rfl
@[simp] theorem programLines_acceptWord (w : Word32) (s : State) :
    programLines (acceptWord w s) = programLines s := rfl
@[simp] theorem programLines_endTurn (v : Bool) (sent : Option Word32) (s : State) :
    programLines (endTurn v sent s) = programLines s := rfl

end Sys2Proof.Machine
end

