-- ==== Sys2Proof/Laws/Tables.lean ====
section
/-! SUPPORT. The sparse tables: what a write changes and leaves, and that every operation keeps the one canonical
form, for `results` and for the reference target's memory. -/

namespace Sys2Proof.Machine

variable {α : Type}

theorem Table.get_set_same (k : Nat) (v : α) (t : List (Nat × α)) : Table.get k (Table.set k v t) = some v := by
  induction t with
  | nil => simp [Table.set, Table.get]
  | cons e t ih =>
    obtain ⟨j, u⟩ := e
    rcases Nat.lt_trichotomy k j with h | h | h
    · simp [Table.set, Table.get, h]
    · simp [Table.set, Table.get, h]
    · have h1 : ¬ k < j := by omega
      have h2 : ¬ k = j := by omega
      have h3 : ¬ j = k := by omega
      simp [Table.set, Table.get, h1, h2, h3, ih]

theorem Table.get_set_other {k j : Nat} (h : j ≠ k) (v : α) (t : List (Nat × α)) :
    Table.get j (Table.set k v t) = Table.get j t := by
  induction t with
  | nil => simp [Table.set, Table.get, Ne.symm h]
  | cons e t ih =>
    obtain ⟨i, u⟩ := e
    rcases Nat.lt_trichotomy k i with h1 | h1 | h1
    · simp [Table.set, Table.get, h1, Ne.symm h]
    · subst h1
      simp [Table.set, Table.get, Ne.symm h]
    · have h2 : ¬ k < i := by omega
      have h3 : ¬ k = i := by omega
      simp [Table.set, Table.get, h2, h3, ih]

theorem Table.mem_set {k : Nat} {v : α} {t : List (Nat × α)} {e : Nat × α} (h : e ∈ Table.set k v t) :
    e = (k, v) ∨ e ∈ t := by
  induction t with
  | nil => simpa [Table.set] using h
  | cons x t ih =>
    obtain ⟨j, u⟩ := x
    rcases Nat.lt_trichotomy k j with h1 | h1 | h1
    · simpa [Table.set, h1] using h
    · simp only [Table.set, h1, if_true, if_false, lt_irrefl, List.mem_cons] at h
      rcases h with h | h
      · exact .inl (by rw [h, h1])
      · exact .inr (List.mem_cons_of_mem _ h)
    · have h2 : ¬ k < j := by omega
      have h3 : ¬ k = j := by omega
      simp only [Table.set, h2, h3, if_false, List.mem_cons] at h
      rcases h with h | h
      · exact .inr (by simp [h])
      · exact (ih h).imp id fun h => List.mem_cons_of_mem _ h

theorem Table.mem_erase {k : Nat} {t : List (Nat × α)} {e : Nat × α} (h : e ∈ Table.erase k t) : e ∈ t := by
  induction t with
  | nil => simp [Table.erase] at h
  | cons x t ih =>
    obtain ⟨j, u⟩ := x
    by_cases h1 : j = k
    · simp only [Table.erase, h1, if_true] at h
      exact List.mem_cons_of_mem _ h
    · simp only [Table.erase, h1, if_false, List.mem_cons] at h
      exact List.mem_cons.2 (h.imp id ih)

theorem Table.sorted_set (k : Nat) (v : α) {t : List (Nat × α)} (h : Table.Sorted t) :
    Table.Sorted (Table.set k v t) := by
  induction t with
  | nil => simp [Table.set, Table.Sorted]
  | cons x t ih =>
    obtain ⟨j, u⟩ := x
    obtain ⟨hx, ht⟩ := List.pairwise_cons.1 h
    rcases Nat.lt_trichotomy k j with h1 | h1 | h1
    · simp only [Table.set, h1, if_true]
      refine List.pairwise_cons.2 ⟨fun e he => ?_, h⟩
      rcases List.mem_cons.1 he with rfl | he
      · exact h1
      · exact lt_trans h1 (hx e he)
    · subst h1
      simp only [Table.set, lt_irrefl, if_true, if_false]
      exact List.pairwise_cons.2 ⟨hx, ht⟩
    · have h2 : ¬ k < j := by omega
      have h3 : ¬ k = j := by omega
      simp only [Table.set, h2, h3, if_false]
      refine List.pairwise_cons.2 ⟨fun e he => ?_, ih ht⟩
      rcases Table.mem_set he with rfl | he
      · exact h1
      · exact hx e he

theorem Table.sorted_erase (k : Nat) {t : List (Nat × α)} (h : Table.Sorted t) :
    Table.Sorted (Table.erase k t) := by
  induction t with
  | nil => simp [Table.erase, Table.Sorted]
  | cons x t ih =>
    obtain ⟨j, u⟩ := x
    obtain ⟨hx, ht⟩ := List.pairwise_cons.1 h
    by_cases h1 : j = k
    · simpa only [Table.erase, h1, if_true] using ht
    · simp only [Table.erase, h1, if_false]
      exact List.pairwise_cons.2 ⟨fun e he => hx e (Table.mem_erase he), ih ht⟩

theorem Table.get_of_key_lt {j : Nat} {t : List (Nat × α)} (h : ∀ e ∈ t, j < e.1) : Table.get j t = none := by
  induction t with
  | nil => rfl
  | cons x t ih =>
    obtain ⟨i, u⟩ := x
    have h1 : j < i := h (i, u) (by simp)
    have h2 : ¬ i = j := by omega
    simp only [Table.get, h2, if_false]
    exact ih fun e he => h e (List.mem_cons_of_mem _ he)

theorem Table.get_erase_same (k : Nat) {t : List (Nat × α)} (h : Table.Sorted t) :
    Table.get k (Table.erase k t) = none := by
  induction t with
  | nil => rfl
  | cons x t ih =>
    obtain ⟨j, u⟩ := x
    obtain ⟨hx, ht⟩ := List.pairwise_cons.1 h
    by_cases h1 : j = k
    · subst h1
      simp only [Table.erase, if_true]
      exact Table.get_of_key_lt hx
    · simp only [Table.erase, h1, if_false, Table.get]
      exact ih ht

theorem Table.get_erase_other {k j : Nat} (h : j ≠ k) (t : List (Nat × α)) :
    Table.get j (Table.erase k t) = Table.get j t := by
  induction t with
  | nil => rfl
  | cons x t ih =>
    obtain ⟨i, u⟩ := x
    by_cases h1 : i = k
    · subst h1
      simp [Table.erase, Table.get, Ne.symm h]
    · simp [Table.erase, Table.get, h1, ih]

/-! ## The reference target's memory -/

theorem Memory.read_write_same (a : Nat) (w : Word32) {m : Memory} (h : Memory.wf m) :
    Memory.read (Memory.write m a w) a = w := by
  unfold Memory.write Memory.read
  split
  · rename_i hw
    rw [Table.get_erase_same a h.1, hw, Option.getD_none]
  · rw [Table.get_set_same, Option.getD_some]

theorem Memory.read_write_other {a b : Nat} (h : b ≠ a) (w : Word32) (m : Memory) :
    Memory.read (Memory.write m a w) b = Memory.read m b := by
  unfold Memory.write Memory.read
  split
  · rw [Table.get_erase_other h]
  · rw [Table.get_set_other h]

/-- A write keeps the canonical form. -/
theorem Memory.wf_write (a : Nat) (w : Word32) {m : Memory} (h : Memory.wf m) : Memory.wf (Memory.write m a w) := by
  unfold Memory.write
  split
  · exact ⟨Table.sorted_erase a h.1, fun e he => h.2 e (Table.mem_erase he)⟩
  · rename_i hw
    refine ⟨Table.sorted_set a w h.1, fun e he => ?_⟩
    rcases Table.mem_set he with rfl | he
    · exact hw
    · exact h.2 e he

theorem Memory.mem_write {a : Nat} {w : Word32} {m : Memory} {e : Nat × Word32} (h : e ∈ Memory.write m a w) :
    e = (a, w) ∨ e ∈ m := by
  unfold Memory.write at h
  split at h
  · exact .inr (Table.mem_erase h)
  · exact Table.mem_set h

/-- A transfer keeps the canonical form. -/
theorem storeWords_wf (c : Params) (a k : Nat) (ws : List Word32) {m : Memory} (h : Memory.wf m) :
    Memory.wf (storeWords c a k ws m) := by
  induction ws generalizing k m with
  | nil => exact h
  | cons w ws ih => exact ih (k + 1) (Memory.wf_write _ _ h)

theorem addrBound_pos (c : Params) : 0 < c.addrBound := Nat.two_pow_pos _

theorem lenBound_pos (c : Params) : 0 < c.lenBound := Nat.two_pow_pos _

theorem wordAddr_lt (c : Params) (a k : Nat) : wordAddr c a k < c.addrBound :=
  Nat.mod_lt _ (addrBound_pos c)

/-- A transfer stores at addresses of `32·A` bits only. -/
theorem storeWords_keys (c : Params) (a k : Nat) (ws : List Word32) {m : Memory}
    (h : ∀ e ∈ m, e.1 < c.addrBound) : ∀ e ∈ storeWords c a k ws m, e.1 < c.addrBound := by
  induction ws generalizing k m with
  | nil => exact h
  | cons w ws ih =>
    refine ih (k + 1) fun e he => ?_
    rcases Memory.mem_write he with rfl | he
    · exact wordAddr_lt c a k
    · exact h e he

@[simp] theorem loadWords_length (c : Params) (a : Nat) (m : Memory) (k n : Nat) :
    (loadWords c a m k n).length = n := by
  induction n generalizing k with
  | zero => rfl
  | succ n ih => simp [loadWords, ih]

/-- The memory right after reset has the canonical form. -/
theorem reset_memory_wf : Memory.wf State.reset.target.mem := by
  simp [State.reset, RefTarget.initial, Memory.wf, Table.Sorted]

end Sys2Proof.Machine
end

