-- ==== Sys2Proof/Laws/Ops.lean ====
section
/-! SUPPORT. For each shared operation, what it answers, said once: provers cite these instead of unfolding. -/

namespace Sys2Proof.Machine

/-! ## Enabling -/

theorem whenHost_ready {s : State} (hc : s.ctx = .host) (hf : s.fault = none) (act : Result) :
    whenHost s act = act := by simp [whenHost, hc, hf]

theorem whenTarget_ready {s : State} (hc : s.ctx = .target) (hf : s.fault = none) (act : Result) :
    whenTarget s act = act := by simp [whenTarget, hc, hf]

theorem byContext_host {s : State} (hc : s.ctx = .host) (hf : s.fault = none) (x y : Result) :
    byContext s x y = x := by simp [byContext, hc, hf]

theorem byContext_target {s : State} (hc : s.ctx = .target) (hf : s.fault = none) (x y : Result) :
    byContext s x y = y := by simp [byContext, hc, hf]

theorem whenHost_next {s t : State} {act : Result} (h : whenHost s act = .next t) :
    s.ctx = .host ∧ s.fault = none ∧ act = .next t := by
  unfold whenHost at h
  split at h
  · cases h
  · rename_i hf
    split at h
    · rename_i hc
      exact ⟨hc, hf, h⟩
    · cases h

theorem whenTarget_next {s t : State} {act : Result} (h : whenTarget s act = .next t) :
    s.ctx = .target ∧ s.fault = none ∧ act = .next t := by
  unfold whenTarget at h
  split at h
  · cases h
  · rename_i hf
    split at h
    · rename_i hc
      exact ⟨hc, hf, h⟩
    · cases h

theorem byContext_next {s t : State} {x y : Result} (h : byContext s x y = .next t) :
    s.fault = none ∧ ((s.ctx = .host ∧ x = .next t) ∨ (s.ctx = .target ∧ y = .next t)) := by
  unfold byContext at h
  split at h
  · cases h
  · rename_i hf
    split at h
    · rename_i hc
      exact ⟨hf, .inl ⟨hc, h⟩⟩
    · rename_i hc
      exact ⟨hf, .inr ⟨hc, h⟩⟩

theorem atReference_next {s t : State} {why : Refusal} {act : RefTarget → RefTarget}
    (h : atReference s why act = .next t) :
    s.collaborator = .reference ∧ t = { s with target := act s.target } := by
  unfold atReference at h
  split at h
  · cases h
  · rename_i hc
    cases h
    exact ⟨hc, rfl⟩

/-! ## Queues -/

theorem roomFor_unbounded {s : State} (h : s.cfg.queueDepth = none) (k : Nat) : roomFor s k = true := by
  simp [roomFor, h]

theorem pushOut_room {s : State} {ws : List Word32} (h : roomFor s ws.length = true) (rest : State → Result) :
    pushOut ws s rest = rest { s with outQ := s.outQ ++ ws } := by simp [pushOut, h]

theorem pushOut_next {s t : State} {ws : List Word32} {rest : State → Result} (h : pushOut ws s rest = .next t) :
    roomFor s ws.length = true ∧ rest { s with outQ := s.outQ ++ ws } = .next t := by
  unfold pushOut at h
  split at h
  · exact ⟨‹_›, h⟩
  · cases h

theorem acceptWords_eq (ws : List Word32) (s : State) :
    acceptWords ws s = { s with inQ := s.inQ ++ ws, recvLog := s.recvLog ++ ws } := by
  induction ws generalizing s with
  | nil => simp [acceptWords]
  | cons w ws ih => simp [acceptWords, ih, acceptWord]

/-! ## Operand checks -/

theorem checkLen_ok {c : Params} {b n : Nat} (h : checkLen c b = .ok n) :
    b = 4 * n ∧ 1 ≤ n ∧ n - 1 < c.lenBound := by
  have hw : wordBytes = 4 := rfl
  unfold checkLen at h
  split at h
  · cases h
  · split at h
    · cases h
    · split at h
      · cases h
      · simp only [Except.ok.injEq] at h
        rw [hw] at *
        omega

theorem checkLen_words {c : Params} {n : Nat} (h1 : 1 ≤ n) (h2 : n - 1 < c.lenBound) :
    checkLen c (4 * n) = .ok n := by
  have h3 : 4 * n % 4 = 0 := by omega
  have h4 : ¬ (4 * n = 0) := by omega
  have h5 : 4 * n / 4 = n := by omega
  have h6 : ¬ (n - 1 ≥ c.lenBound) := by omega
  simp only [checkLen, wordBytes, h3, h4, h5, h6, if_false, ne_eq, not_true_eq_false]

theorem checkTransfer_ok {c : Params} {a b n : Nat} (h : checkTransfer c a b = .ok n) :
    a < c.addrBound ∧ b = 4 * n ∧ 1 ≤ n ∧ n - 1 < c.lenBound := by
  unfold checkTransfer at h
  split at h
  · cases h
  · exact ⟨by omega, checkLen_ok h⟩

theorem checkTransfer_words {c : Params} {a n : Nat} (ha : a < c.addrBound) (h1 : 1 ≤ n)
    (h2 : n - 1 < c.lenBound) : checkTransfer c a (4 * n) = .ok n := by
  have h : ¬ (a ≥ c.addrBound) := by omega
  simp only [checkTransfer, h, if_false]
  exact checkLen_words h1 h2

/-! ## The encoder, the decoder and the poke helpers: what they can do -/

/-- `encode_read` raises a fault and does nothing else, or pushes the command, sets the read outstanding and moves
on. -/
theorem encodeRead_next {a b : Nat} {s t : State} (h : encodeRead a b s = .next t) :
    (∃ e, t = { s with fault := some e }) ∨
    (∃ n, checkTransfer s.cfg a b = .ok n ∧ s.outstanding = none ∧
      t = { s with outQ := s.outQ ++ encRead s.cfg a n, outstanding := some n, hpc := s.hpc + 1 }) := by
  unfold encodeRead at h
  split at h
  · rename_i e _
    exact .inl ⟨e, by simpa [raiseFault] using h.symm⟩
  · rename_i n hn
    split at h
    · exact .inl ⟨.readOverlap, by simpa [raiseFault] using h.symm⟩
    · rename_i ho
      obtain ⟨-, h⟩ := pushOut_next h
      refine .inr ⟨n, hn, not_not.1 ho, ?_⟩
      simpa [advance] using h.symm

/-- `encode_write` raises a fault and does nothing else, or pushes the command and moves on. -/
theorem encodeWrite_next {a b : Nat} {p : List Word32} {s t : State} (h : encodeWrite a b p s = .next t) :
    (∃ e, t = { s with fault := some e }) ∨
    (∃ n, checkTransfer s.cfg a b = .ok n ∧ p.length = n ∧
      t = { s with outQ := s.outQ ++ encWrite s.cfg a n p, hpc := s.hpc + 1 }) := by
  unfold encodeWrite at h
  split at h
  · rename_i e _
    exact .inl ⟨e, by simpa [raiseFault] using h.symm⟩
  · rename_i n hn
    split at h
    · exact .inl ⟨.payloadMismatch, by simpa [raiseFault] using h.symm⟩
    · rename_i hp
      obtain ⟨-, h⟩ := pushOut_next h
      refine .inr ⟨n, hn, not_not.1 hp, ?_⟩
      simpa [advance] using h.symm

/-- One step of `read_result` raises a fault, yields on an empty queue, or moves one word. -/
theorem readResult_next {b k : Nat} {s t : State} (h : readResult b k s = .next t) :
    (∃ e, t = { s with fault := some e }) ∨
    (∃ n, checkLen s.cfg b = .ok n ∧ s.outstanding = some n ∧
      ((s.inQ = [] ∧ t = switchTo .target s) ∨
       (∃ w q, s.inQ = w :: q ∧ t = collectWord n k w { s with inQ := q }))) := by
  unfold readResult at h
  split at h
  · rename_i e _
    exact .inl ⟨e, by simpa [raiseFault] using h.symm⟩
  · rename_i n hn
    split at h
    · exact .inl ⟨.readMismatch, by simpa [raiseFault] using h.symm⟩
    · rename_i ho
      refine .inr ⟨n, hn, not_not.1 ho, ?_⟩
      split at h
      · rename_i hq
        exact .inl ⟨hq, by simpa using h.symm⟩
      · rename_i w q hq
        exact .inr ⟨w, q, hq, by simpa using h.symm⟩

theorem collectWord_last {n k : Nat} {w : Word32} {s : State} (h : s.rdBuf.length + 1 = n) :
    collectWord n k w s =
      { s with results := Table.set k (s.rdBuf ++ [w]) s.results, rdBuf := [], outstanding := none,
               hpc := s.hpc + 1 } := by
  simp [collectWord, h, advance]

theorem collectWord_more {n k : Nat} {w : Word32} {s : State} (h : s.rdBuf.length + 1 ≠ n) :
    collectWord n k w s = { s with rdBuf := s.rdBuf ++ [w] } := by
  simp [collectWord, h]

theorem execStartProgram_next {s t : State} (h : execStartProgram s = .next t) :
    s.ctx = .host ∧ s.fault = none ∧
    t = { s with outQ := s.outQ ++ encWrite s.cfg s.cfg.startAddr 1 [1], hpc := s.hpc + 1 } := by
  obtain ⟨hc, hf, h⟩ := whenHost_next h
  obtain ⟨-, h⟩ := pushOut_next h
  exact ⟨hc, hf, by simpa [advance] using h.symm⟩

theorem execReset_next {s t : State} (h : execReset s = .next t) :
    s.ctx = .host ∧ s.fault = none ∧
    t = { s with
            outQ := s.outQ ++ (encWrite s.cfg s.cfg.resetFirst 1 [0] ++ encWrite s.cfg s.cfg.resetSecond 1 [0]),
            hpc := s.hpc + 1 } := by
  obtain ⟨hc, hf, h⟩ := whenHost_next h
  obtain ⟨-, h⟩ := pushOut_next h
  obtain ⟨-, h⟩ := pushOut_next h
  exact ⟨hc, hf, by simpa [advance] using h.symm⟩

/-! ## The channel -/

/-- A word leaves the Outbound Queue exactly when it is offered and accepted. -/
theorem outboundHalf_cons {s : State} {w : Word32} {q : List Word32} (h : s.outQ = w :: q) :
    outboundHalf true s = { s with outQ := q, sentLog := s.sentLog ++ [w] } := by
  simp [outboundHalf, outValid, outBits, h]

theorem outboundHalf_not_ready (s : State) : outboundHalf false s = s := by simp [outboundHalf]

theorem outboundHalf_empty {s : State} (h : s.outQ = []) (r : Bool) : outboundHalf r s = s := by
  simp [outboundHalf, outValid, h]

theorem inboundHalf_valid (w : Word32) (s : State) : inboundHalf true w s = acceptWord w s := by
  simp [inboundHalf, inReady]

theorem inboundHalf_not_valid (w : Word32) (s : State) : inboundHalf false w s = s := by simp [inboundHalf]

/-- The channel step as one record: the two halves touch disjoint state. -/
theorem channelStep_eq (r v : Bool) (w : Word32) (s : State) :
    channelStep r v w s =
      { s with
        outQ := if r then s.outQ.tail else s.outQ
        sentLog := s.sentLog ++ (if r then s.outQ.head?.toList else [])
        inQ := s.inQ ++ (if v then [w] else [])
        recvLog := s.recvLog ++ (if v then [w] else []) } := by
  rcases s with ⟨outQ, _⟩
  cases r <;> cases v <;> cases outQ <;>
    simp [channelStep, outboundHalf, inboundHalf, outValid, outBits, inReady, acceptWord]

/-- One target turn as one record. -/
theorem execTargetTurn_next {r v : Bool} {w : Word32} {s t : State} (h : execTargetTurn r v w s = .next t) :
    s.ctx = .target ∧ s.fault = none ∧
    t = endTurn v (if r then s.outQ.head? else none) (channelStep r v w s) := by
  obtain ⟨hc, hf, h⟩ := whenTarget_next h
  exact ⟨hc, hf, by simpa [outBits] using h.symm⟩

end Sys2Proof.Machine
end

