-- ==== Sys2Proof/Laws/PerInstr.lean ====
section
/-! SUPPORT. A family of laws over all instructions as terms: how many wire words each one has (R72, R73, R81, R82,
R89). -/

namespace Sys2Proof.Laws.WireLength

/-- The number of wire words of an instruction. -/
def wireLength (c : Params) : Instr → Nat
  | .wireRead _ _ => c.headWords
  | .wireWrite _ n _ => c.headWords + n
  | .readResponse ws => ws.length
  | .reservedHeader _ => 1
  | .readReq _ _ => 0
  | .write _ _ _ => 0
  | .writeChunk _ _ _ => 0
  | .readResp _ _ => 0
  | .read _ _ _ => 0
  | .startProgram => 0
  | .reset => 0
  | .yield => 0
  | .offerOutboundWord => 0
  | .acceptInboundWord _ => 0
  | .channelStep _ _ _ => 0
  | .targetTurn _ _ _ => 0
  | .idle => 0

/-- A well-formed instruction is encoded in `wireLength` words. -/
def Statement (i : Instr) : Prop := ∀ c : Params, i.wf c = true → (encode c i).length = wireLength c i

theorem wireRead (a n : Nat) : Statement (.wireRead a n) := fun c _ => encRead_length c a n

theorem wireWrite (a n : Nat) (p : List Word32) : Statement (.wireWrite a n p) := by
  intro c h
  have h1 : p.length = n := by
    simp only [Instr.wf, Bool.and_eq_true, decide_eq_true_eq] at h
    exact h.2
  simp [encode, wireLength, h1]

theorem readResponse (ws : List Word32) : Statement (.readResponse ws) := fun _ _ => rfl
theorem reservedHeader (w : Word32) : Statement (.reservedHeader w) := fun _ _ => rfl
theorem readReq (a b : Nat) : Statement (.readReq a b) := fun _ _ => rfl
theorem write (a b : Nat) (p : List Word32) : Statement (.write a b p) := fun _ _ => rfl
theorem writeChunk (a b : Nat) (p : List Word32) : Statement (.writeChunk a b p) := fun _ _ => rfl
theorem readResp (b k : Nat) : Statement (.readResp b k) := fun _ _ => rfl
theorem read (a b k : Nat) : Statement (.read a b k) := fun _ _ => rfl
theorem startProgram : Statement .startProgram := fun _ _ => rfl
theorem reset : Statement .reset := fun _ _ => rfl
theorem yield : Statement .yield := fun _ _ => rfl
theorem offerOutboundWord : Statement .offerOutboundWord := fun _ _ => rfl
theorem acceptInboundWord (w : Word32) : Statement (.acceptInboundWord w) := fun _ _ => rfl
theorem channelStep (r v : Bool) (w : Word32) : Statement (.channelStep r v w) := fun _ _ => rfl
theorem targetTurn (r v : Bool) (w : Word32) : Statement (.targetTurn r v w) := fun _ _ => rfl
theorem idle : Statement .idle := fun _ _ => rfl

end Sys2Proof.Laws.WireLength
end

