-- ==== Sys2Proof/Laws/Safety.lean ====
section
/-! SUPPORT. The functions over command lists that claims are stated in, over a concatenation, and how they agree. -/

namespace Sys2Proof.Machine

@[simp] theorem demanded_nil : demanded [] = 0 := rfl

@[simp] theorem demanded_read (a n : Nat) (l : List Command) : demanded (.read a n :: l) = n + demanded l := rfl

@[simp] theorem demanded_write (a n : Nat) (p : List Word32) (l : List Command) :
    demanded (.write a n p :: l) = demanded l := rfl

@[simp] theorem demanded_append (xs ys : List Command) : demanded (xs ++ ys) = demanded xs + demanded ys := by
  induction xs with
  | nil => simp
  | cons x xs ih => cases x <;> simp [ih, Nat.add_assoc]

/-- Answers are given in wire order, each on the memory that the commands before it leave. -/
theorem honestAnswers_append (c : Params) (xs ys : List Command) (m : Memory) :
    honestAnswers c (xs ++ ys) m =
      ((honestAnswers c xs m).1 ++ (honestAnswers c ys (honestAnswers c xs m).2).1,
        (honestAnswers c ys (honestAnswers c xs m).2).2) := by
  induction xs generalizing m with
  | nil => simp [honestAnswers]
  | cons x xs ih => cases x <;> simp [honestAnswers, ih]

/-- The answers are as many words as the READs ask for, whatever the memory. -/
@[simp] theorem honestAnswers_length (c : Params) (xs : List Command) (m : Memory) :
    (honestAnswers c xs m).1.length = demanded xs := by
  induction xs generalizing m with
  | nil => rfl
  | cons x xs ih => cases x <;> simp [honestAnswers, ih]

/-- More issued commands after a push of whole well-formed ones. -/
theorem State.Issued.push {s t : State} {cmds more : List Command} (h : s.Issued cmds) (hc : t.cfg = s.cfg)
    (hw : ∀ x ∈ more, commandWf s.cfg x = true)
    (hq : t.sentLog ++ t.outQ = s.sentLog ++ s.outQ ++ more.flatMap (encCommand s.cfg)) :
    t.Issued (cmds ++ more) := by
  refine ⟨fun x hx => ?_, ?_⟩
  · rw [hc]
    rcases List.mem_append.1 hx with hx | hx
    exacts [h.1 x hx, hw x hx]
  · rw [hq, hc, h.2, List.flatMap_append]

/-- A step that moves words along the wire, or none, keeps the commands issued. -/
theorem State.Issued.same {s t : State} {cmds : List Command} (h : s.Issued cmds) (hc : t.cfg = s.cfg)
    (hq : t.sentLog ++ t.outQ = s.sentLog ++ s.outQ) : t.Issued cmds := by
  simpa using h.push (more := []) hc (by simp) (by simpa using hq)

end Sys2Proof.Machine
end

