-- ==== Sys2Proof/Laws/Step.lean ====
section
/-! SUPPORT. What one step of the machine can do, said once: invariants and history claims are derived from
`step_cases`, not by unfolding `step`. -/

namespace Sys2Proof.Machine

theorem fetch_target {s : State} (h : s.ctx = .target) :
    fetch s = .targetTurn (nextDraw s).outReady (nextDraw s).inValid (nextDraw s).inBits := by
  simp [fetch, h]

theorem fetch_line {s : State} {i : Instr} (h : s.ctx = .host) (hi : (programLines s)[s.hpc]? = some i) :
    fetch s = i := by simp [fetch, h, hi]

theorem fetch_end {s : State} (h : s.ctx = .host) (hi : (programLines s).length ≤ s.hpc) : fetch s = .idle := by
  simp [fetch, h, List.getElem?_eq_none hi]

/-- No line of a program is the pseudo-operation `read`: it is two lines (R87). -/
theorem read_not_line (s : State) (a b k : Nat) : Instr.read a b k ∉ programLines s := by
  intro h
  obtain ⟨i, -, hi⟩ := List.mem_flatMap.1 h
  cases i <;> simp [expandLine] at hi

theorem line_lt {s : State} {i : Instr} (h : (programLines s)[s.hpc]? = some i) :
    s.hpc < (programLines s).length := by
  obtain ⟨h, -⟩ := List.getElem?_eq_some_iff.1 h
  exact h

/-- The answers of a step, case by case. -/
inductive StepCase (s t : State) : Prop where
  /-- a host operation raised a fault (R210) -/
  | raised (hc : s.ctx = .host) (i : Instr) (hi : (programLines s)[s.hpc]? = some i) (e : FaultCode)
      (ht : t = { s with fault := some e })
  /-- READ issued by `encode_read` (R101) -/
  | issuedRead (hc : s.ctx = .host) (i : Instr) (hi : (programLines s)[s.hpc]? = some i) (a n : Nat)
      (hf : i = .wireRead a n ∨ i = .readReq a (4 * n)) (ha : a < s.cfg.addrBound) (hn : 1 ≤ n)
      (hl : n - 1 < s.cfg.lenBound) (ho : s.outstanding = none)
      (ht : t = { s with outQ := s.outQ ++ encRead s.cfg a n, outstanding := some n, hpc := s.hpc + 1 })
  /-- WRITE issued by `encode_write` (R106) -/
  | issuedWrite (hc : s.ctx = .host) (i : Instr) (hi : (programLines s)[s.hpc]? = some i) (a n : Nat)
      (p : List Word32)
      (hf : i = .wireWrite a n p ∨ i = .write a (4 * n) p ∨ i = .writeChunk a (4 * n) p)
      (ha : a < s.cfg.addrBound) (hn : 1 ≤ n) (hl : n - 1 < s.cfg.lenBound) (hp : p.length = n)
      (ht : t = { s with outQ := s.outQ ++ encWrite s.cfg a n p, hpc := s.hpc + 1 })
  /-- `start_program` (R140) -/
  | started (hc : s.ctx = .host) (hi : (programLines s)[s.hpc]? = some .startProgram)
      (ht : t = { s with outQ := s.outQ ++ encWrite s.cfg s.cfg.startAddr 1 [1], hpc := s.hpc + 1 })
  /-- `reset` of the target (R143) -/
  | released (hc : s.ctx = .host) (hi : (programLines s)[s.hpc]? = some .reset)
      (ht : t = { s with
                    outQ := s.outQ ++
                      (encWrite s.cfg s.cfg.resetFirst 1 [0] ++ encWrite s.cfg s.cfg.resetSecond 1 [0]),
                    hpc := s.hpc + 1 })
  /-- `read_resp` blocked on an empty queue (R122) -/
  | blocked (hc : s.ctx = .host) (b k : Nat) (hi : (programLines s)[s.hpc]? = some (.readResp b k)) (n : Nat)
      (hn : checkLen s.cfg b = .ok n) (ho : s.outstanding = some n) (hq : s.inQ = [])
      (ht : t = switchTo .target s)
  /-- `read_resp` moved one word (R122) -/
  | collected (hc : s.ctx = .host) (b k : Nat) (hi : (programLines s)[s.hpc]? = some (.readResp b k)) (n : Nat)
      (hn : checkLen s.cfg b = .ok n) (ho : s.outstanding = some n) (w : Word32) (q : List Word32)
      (hq : s.inQ = w :: q) (ht : t = collectWord n k w { s with inQ := q })
  /-- `yield` (R184) -/
  | yielded (hc : s.ctx = .host) (hi : (programLines s)[s.hpc]? = some .yield)
      (ht : t = advance (switchTo .target s))
  /-- the idle step (R186) -/
  | idled (hc : s.ctx = .host) (hl : (programLines s).length ≤ s.hpc) (ht : t = switchTo .target s)
  /-- a target turn (R185) -/
  | turned (hc : s.ctx = .target) (r v : Bool) (w : Word32) (hd : nextDraw s = ⟨r, v, w⟩)
      (ht : t = endTurn v (if r then s.outQ.head? else none) (channelStep r v w s))

/-- Whatever a step answers as a next state is one of the cases, and the state it stepped from had no fault. -/
theorem step_cases {s t : State} (h : step s = .next t) : s.fault = none ∧ StepCase s t := by
  unfold step at h
  rcases hc : s.ctx with _ | _
  · rcases hl : (programLines s)[s.hpc]? with _ | i
    · have hlen : (programLines s).length ≤ s.hpc := List.getElem?_eq_none_iff.1 hl
      rw [fetch_end hc hlen] at h
      obtain ⟨-, hf, h⟩ := whenHost_next h
      rw [if_neg (by omega)] at h
      exact ⟨hf, .idled hc hlen (by simpa using h.symm)⟩
    · rw [fetch_line hc hl] at h
      cases i with
      | wireRead a n =>
        obtain ⟨hf, ⟨-, h⟩ | ⟨ht, -⟩⟩ := byContext_next h
        · refine ⟨hf, ?_⟩
          obtain ⟨e, he⟩ | ⟨m, hm, ho, ht⟩ := encodeRead_next h
          · exact .raised hc _ hl e he
          · obtain ⟨ha, hb, h1, h2⟩ := checkTransfer_ok hm
            obtain rfl : n = m := by simp only [wordBytes] at hb; omega
            exact .issuedRead hc _ hl a n (.inl rfl) ha h1 h2 ho ht
        · rw [hc] at ht
          cases ht
      | wireWrite a n p =>
        obtain ⟨hf, ⟨-, h⟩ | ⟨ht, -⟩⟩ := byContext_next h
        · refine ⟨hf, ?_⟩
          obtain ⟨e, he⟩ | ⟨m, hm, hp, ht⟩ := encodeWrite_next h
          · exact .raised hc _ hl e he
          · obtain ⟨ha, hb, h1, h2⟩ := checkTransfer_ok hm
            obtain rfl : n = m := by simp only [wordBytes] at hb; omega
            exact .issuedWrite hc _ hl a n p (.inl rfl) ha h1 h2 hp ht
        · rw [hc] at ht
          cases ht
      | reservedHeader w =>
        obtain ⟨hf, ⟨-, h⟩ | ⟨ht, -⟩⟩ := byContext_next h
        · cases h
        · rw [hc] at ht
          cases ht
      | readReq a b =>
        obtain ⟨-, hf, h⟩ := whenHost_next h
        refine ⟨hf, ?_⟩
        obtain ⟨e, he⟩ | ⟨n, hn, ho, ht⟩ := encodeRead_next h
        · exact .raised hc _ hl e he
        · obtain ⟨ha, rfl, h1, h2⟩ := checkTransfer_ok hn
          exact .issuedRead hc _ hl a n (.inr rfl) ha h1 h2 ho ht
      | write a b p =>
        obtain ⟨-, hf, h⟩ := whenHost_next h
        refine ⟨hf, ?_⟩
        obtain ⟨e, he⟩ | ⟨n, hn, hp, ht⟩ := encodeWrite_next h
        · exact .raised hc _ hl e he
        · obtain ⟨ha, rfl, h1, h2⟩ := checkTransfer_ok hn
          exact .issuedWrite hc _ hl a n p (.inr (.inl rfl)) ha h1 h2 hp ht
      | writeChunk a b p =>
        obtain ⟨-, hf, h⟩ := whenHost_next h
        refine ⟨hf, ?_⟩
        obtain ⟨e, he⟩ | ⟨n, hn, hp, ht⟩ := encodeWrite_next h
        · exact .raised hc _ hl e he
        · obtain ⟨ha, rfl, h1, h2⟩ := checkTransfer_ok hn
          exact .issuedWrite hc _ hl a n p (.inr (.inr rfl)) ha h1 h2 hp ht
      | readResp b k =>
        obtain ⟨-, hf, h⟩ := whenHost_next h
        refine ⟨hf, ?_⟩
        obtain ⟨e, he⟩ | ⟨n, hn, ho, ⟨hq, ht⟩ | ⟨w, q, hq, ht⟩⟩ := readResult_next h
        · exact .raised hc _ hl e he
        · exact .blocked hc b k hl n hn ho hq ht
        · exact .collected hc b k hl n hn ho w q hq ht
      | read a b k => exact absurd (List.mem_of_getElem? hl) (read_not_line s a b k)
      | startProgram =>
        obtain ⟨-, hf, ht⟩ := execStartProgram_next h
        exact ⟨hf, .started hc hl ht⟩
      | reset =>
        obtain ⟨-, hf, ht⟩ := execReset_next h
        exact ⟨hf, .released hc hl ht⟩
      | yield =>
        obtain ⟨-, hf, h⟩ := whenHost_next h
        exact ⟨hf, .yielded hc hl (by simpa using h.symm)⟩
      | idle =>
        obtain ⟨-, hf, h⟩ := whenHost_next h
        rw [if_pos (line_lt hl)] at h
        cases h
      | readResponse ws =>
        obtain ⟨ht, -, -⟩ := whenTarget_next h
        rw [hc] at ht
        cases ht
      | offerOutboundWord =>
        obtain ⟨ht, -, -⟩ := whenTarget_next h
        rw [hc] at ht
        cases ht
      | acceptInboundWord w =>
        obtain ⟨ht, -, -⟩ := whenTarget_next h
        rw [hc] at ht
        cases ht
      | channelStep r v w =>
        obtain ⟨ht, -, -⟩ := whenTarget_next h
        rw [hc] at ht
        cases ht
      | targetTurn r v w =>
        obtain ⟨ht, -, -⟩ := whenTarget_next h
        rw [hc] at ht
        cases ht
  · rw [fetch_target hc] at h
    obtain ⟨-, hf, ht⟩ := execTargetTurn_next h
    exact ⟨hf, .turned hc _ _ _ rfl ht⟩

/-! ## Runs of several steps -/

theorem run_zero (s : State) : core.run 0 s = .next s := rfl

theorem run_succ_next {s t : State} (h : step s = .next t) (k : Nat) : core.run (k + 1) s = core.run k t := by
  have h' : core.step s = .next t := h
  simp only [Host.Core.run, h']

theorem run_succ_fault {s : State} {r : Fault} (h : step s = .fault r) (k : Nat) :
    core.run (k + 1) s = .fault r := by
  have h' : core.step s = .fault r := h
  simp only [Host.Core.run, h']

theorem run_succ_refused {s : State} {r : Refusal} (h : step s = .refused r) (k : Nat) :
    core.run (k + 1) s = .refused r := by
  have h' : core.step s = .refused r := h
  simp only [Host.Core.run, h']

theorem run_one (s : State) : core.run 1 s = step s := by
  cases h : step s with
  | next t => exact run_succ_next h 0
  | fault r => exact run_succ_fault h 0
  | refused r => exact run_succ_refused h 0

/-- A run that answers a next state begins with a step that does. -/
theorem run_succ_cases {k : Nat} {s t : State} (h : core.run (k + 1) s = .next t) :
    ∃ u, step s = .next u ∧ core.run k u = .next t := by
  cases hs : step s with
  | next u => exact ⟨u, rfl, (run_succ_next hs k).symm.trans h⟩
  | fault r => cases (run_succ_fault hs k).symm.trans h
  | refused r => cases (run_succ_refused hs k).symm.trans h

/-- A run of `j + k` steps is a run of `j` and then a run of `k`. -/
theorem run_add {j : Nat} {s t : State} (h : core.run j s = .next t) (k : Nat) :
    core.run (j + k) s = core.run k t := by
  induction j generalizing s with
  | zero =>
    cases h
    rw [Nat.zero_add]
  | succ j ih =>
    obtain ⟨u, hu, h⟩ := run_succ_cases h
    rw [Nat.succ_add]
    exact (run_succ_next hu _).trans (ih h)

/-- A run of `j + k` steps that answers a next state passes through one after `j`. -/
theorem run_prefix {j k : Nat} {s t : State} (h : core.run (j + k) s = .next t) :
    ∃ u : State, core.run j s = .next u ∧ core.run k u = .next t := by
  induction j generalizing s with
  | zero => exact ⟨s, rfl, by simpa using h⟩
  | succ j ih =>
    rw [show j + 1 + k = j + k + 1 by omega] at h
    obtain ⟨v, hv, h⟩ := run_succ_cases h
    obtain ⟨u, hu, h⟩ := ih h
    exact ⟨u, (run_succ_next hv j).trans hu, h⟩

/-- What holds at the start of a run and is kept by every step holds all along it. -/
theorem run_keeps {P : State → Prop} (hP : ∀ s t, P s → step s = .next t → P t) {k : Nat} {s t : State}
    (hs : P s) (h : core.run k s = .next t) : P t := by
  induction k generalizing s with
  | zero =>
    cases h
    exact hs
  | succ k ih =>
    obtain ⟨u, hu, h⟩ := run_succ_cases h
    exact ih (hP s u hs hu) h

end Sys2Proof.Machine
end

