-- ==== Sys2Proof/Tests/Slice0.lean ====
section
/-! SUPPORT. Tests: ill-formed terms, decodings written out from the spec, one-step vectors of
95_test_vectors.md (V and E numbers), and for every obligation with hypotheses a state that meets them. -/

namespace Sys2Proof.Machine.Tests

open Sys2Proof Sys2Proof.Machine

/-! ## Helpers -/

/-- The default parameters with the test-only addresses of 95_test_vectors.md. -/
abbrev cfg0 : Params :=
  { opRead := 0, opWrite := 1, addrChunks := 2, lenChunks := 2, startAddr := 0x02000000,
    resetFirst := 0x3000, resetSecond := 0x3004, queueDepth := none }

/-- Power-on with the test parameters. -/
abbrev base : State := { State.reset with cfg := cfg0 }

/-- `base` about to take a target turn. -/
abbrev turn : State := { base with ctx := .target }

/-- `base` with a finite `QUEUE_DEPTH`. -/
abbrev depth (d : Nat) : State := { base with cfg := { cfg0 with queueDepth := some d } }

/-- `turn` with the reference target attached. -/
abbrev echo : State := { turn with collaborator := .reference }

/-- The answer is a next state, and it is `t`. -/
def goesTo (r : Result) (t : State) : Bool :=
  match r with
  | .next u => decide (u = t)
  | .fault _ => false
  | .refused _ => false

/-- The answer is the stop `f`. -/
def stopsAt (r : Result) (f : Fault) : Bool :=
  match r with
  | .next _ => false
  | .fault g => decide (g = f)
  | .refused _ => false

/-- The answer is the refusal `f`. -/
def refuses (r : Result) (f : Refusal) : Bool :=
  match r with
  | .next _ => false
  | .fault _ => false
  | .refused g => decide (g = f)

/-- The first `k` steps reach a state with the property. -/
def after (k : Nat) (s : State) (p : State → Bool) : Bool :=
  match (core.run k s : Result) with
  | .next t => p t
  | .fault _ => false
  | .refused _ => false

/-! ## Well-formedness: what each check refuses -/

theorem test_wf_read_address : Instr.wf cfg0 (.wireRead (2 ^ 64) 1) = false := by decide
theorem test_wf_read_zero : Instr.wf cfg0 (.wireRead 0 0) = false := by decide
theorem test_wf_read_long : Instr.wf cfg0 (.wireRead 0 (2 ^ 64 + 1)) = false := by decide
theorem test_wf_read_good : Instr.wf cfg0 (.wireRead (2 ^ 64 - 1) (2 ^ 64)) = true := by decide
theorem test_wf_write_address : Instr.wf cfg0 (.wireWrite (2 ^ 64) 1 [0]) = false := by decide
theorem test_wf_write_zero : Instr.wf cfg0 (.wireWrite 0 0 []) = false := by decide
theorem test_wf_write_long : Instr.wf cfg0 (.wireWrite 0 (2 ^ 64 + 1) []) = false := by decide
theorem test_wf_write_payload : Instr.wf cfg0 (.wireWrite 0 2 [1]) = false := by decide
theorem test_wf_response_empty : Instr.wf cfg0 (.readResponse []) = false := by decide
theorem test_wf_reserved_opcode :
    Instr.wf cfg0 (.reservedHeader 0) = false ∧ Instr.wf cfg0 (.reservedHeader 1) = false := by decide
theorem test_wf_program_wire : programWf [.yield, .wireRead 0 1] = false := by decide
theorem test_wf_program_good : programWf [.yield, .read 0 4 0, .reset] = true := by decide
theorem test_wf_params_opcodes : ({ cfg0 with opWrite := 0 } : Params).wf = false := by decide
theorem test_wf_params_chunks :
    ({ cfg0 with addrChunks := 0, startAddr := 0, resetFirst := 0, resetSecond := 0 } : Params).wf = false ∧
    ({ cfg0 with lenChunks := 0 } : Params).wf = false := by decide
theorem test_wf_params_address : ({ cfg0 with startAddr := 2 ^ 64 } : Params).wf = false := by decide
theorem test_wf_params_good : cfg0.wf = true := by decide

/-! ## Decoding: words and lines written out from the spec -/

/-- V1: every field zero. -/
theorem test_decode_read : decode cfg0 [0, 0, 0, 0, 0] = .ok (.wireRead 0 1, []) := by decide

/-- V3, E4: the high address chunk and the stored length `n − 1`. -/
theorem test_decode_read_chunks : decode cfg0 [0, 0, 1, 3, 0, 9] = .ok (.wireRead 0x100000000 4, [9]) := by decide

/-- V4, E4: the largest length. -/
theorem test_decode_read_longest :
    decode cfg0 [0, 0, 0, 0xFFFFFFFF, 0xFFFFFFFF] = .ok (.wireRead 0 (2 ^ 64), []) := by decide

/-- V13. -/
theorem test_decode_write :
    decode cfg0 [1, 0x9ABCDEF0, 0x12345678, 2, 0, 0xA, 0xB, 0xC] =
      .ok (.wireWrite 0x123456789ABCDEF0 3 [0xA, 0xB, 0xC], []) := by decide

/-- V60: header 7 is reserved, one word long. -/
theorem test_decode_reserved : decode cfg0 [7, 0, 0] = .ok (.reservedHeader 7, [0, 0]) := by decide

/-- V20: two words are the response to a READ of two words. -/
theorem test_decode_response : decodeResponse 2 [11, 22, 33] = .ok (.readResponse [11, 22], [33]) := by decide

/-- V61, V63: a stream that ends inside a command is refused. -/
theorem test_decode_cut :
    decode cfg0 [] = .error .noHeader ∧ decode cfg0 [0, 0x1000] = .error .addressCut ∧
    decode cfg0 [0, 0x1000, 0] = .error .lengthCut ∧
    decode cfg0 [1, 0x2000, 0, 0, 0] = .error .payloadCut ∧
    decodeResponse 2 [1] = .error .payloadCut := by decide

/-- V12, V1: the encoder's words. -/
theorem test_encode :
    encode cfg0 (.wireWrite 0x2000 1 [0xDEADBEEF]) = [1, 0x2000, 0, 0, 0, 0xDEADBEEF] ∧
    encode cfg0 (.wireRead 0 1) = [0, 0, 0, 0, 0] := by decide

/-- E5: chunks, least significant first. -/
theorem test_chunks :
    chunks 2 0x123456789ABCDEF0 = [0x9ABCDEF0, 0x12345678] ∧ unchunk [0, 1] = 0x100000000 := by decide

/-- The table's READ row: bits 31 to 0 are 0. -/
theorem test_table_read : decodeTableWord 32 0 = some (.wireRead 0 1) := by decide

/-- The table's WRITE row: bits 31 to 0 are 1. -/
theorem test_table_write : decodeTableWord 32 1 = some (.wireWrite 0 1 [0]) := by decide

/-- A first word of 7 is RESERVED_HEADER. -/
theorem test_table_reserved : decodeTableWord 32 7 = some (.reservedHeader 7) := by decide

/-- The forms of R84 to R88, one line each. -/
theorem test_parse_lines :
    parseProgram "read_req 0x1000, 8\nwrite 8192, 4, [0xDEAD_BEEF] ; V12\nread_resp 8 -> b0\n\nyield".toList =
      .ok [.readReq 0x1000 8, .write 0x2000 4 [0xDEADBEEF], .readResp 8 0, .yield] := by decide

theorem test_parse_pseudo :
    parseLine "read 0x1000, 8 -> b12".toList = .ok (some (.read 0x1000 8 12)) ∧
    parseLine "write_chunk 0, 8, [1, 2]".toList = .ok (some (.writeChunk 0 8 [1, 2])) := by decide

theorem test_parse_pokes :
    parseLine "start_program".toList = .ok (some .startProgram) ∧
    parseLine "reset".toList = .ok (some .reset) := by decide

/-- R85, R182: what the parser refuses. -/
theorem test_parse_refused :
    parseLine "write 0, 4, [0x100000000]".toList = .error .wideWord ∧
    parseLine "idle".toList = .error .badLine ∧ parseLine "read_req 0x, 4".toList = .error .badLiteral ∧
    parseLine "read_req 1 + 1, 4".toList = .error .strayCharacter := by decide

/-- An address of any size is no parse error (R85). -/
theorem test_parse_wide_address :
    parseLine "read_req 0x10000000000000000, 6".toList = .ok (some (.readReq (2 ^ 64) 6)) := by decide

/-- R54: byte `j` of a word is bits `8j+7` to `8j`. -/
theorem test_pack : packBytes [0x78, 0x56, 0x34, 0x12] = some [0x12345678] ∧ packBytes [1, 2] = none := by decide

/-! ## One-step vectors -/

/-- V3. -/
theorem test_readReq :
    goesTo (exec (.readReq 0x100000000 16) base)
      { base with outQ := [0, 0, 1, 3, 0], outstanding := some 4, hpc := 1 } = true := by decide

/-- V11: a bad byte count goes before the overlap. -/
theorem test_readReq_priority :
    goesTo (exec (.readReq 0x1000 6) { base with outstanding := some 2 })
      { base with outstanding := some 2, fault := some .badByteCount } = true := by decide

/-- V17: a write while a read is outstanding. -/
theorem test_write :
    goesTo (exec (.write 0x2000 4 [5]) { base with outstanding := some 2 })
      { base with outstanding := some 2, outQ := [1, 0x2000, 0, 0, 0, 5], hpc := 1 } = true := by decide

/-- V15: a zero length goes before the payload check. -/
theorem test_write_priority :
    goesTo (exec (.write 0x2000 0 []) base) { base with fault := some .zeroLength } = true := by decide

/-- V13 in the other spelling. -/
theorem test_writeChunk :
    goesTo (exec (.writeChunk 0x123456789ABCDEF0 12 [0xA, 0xB, 0xC]) base)
      { base with outQ := [1, 0x9ABCDEF0, 0x12345678, 2, 0, 0xA, 0xB, 0xC], hpc := 1 } = true := by decide

/-- V14. -/
theorem test_writeChunk_payload :
    goesTo (exec (.writeChunk 0x2000 8 [1]) base) { base with fault := some .payloadMismatch } = true := by decide

/-- V19: `A = L = 1`. -/
theorem test_readReq_narrow :
    after 1 { base with cfg := { cfg0 with addrChunks := 1, lenChunks := 1 }, prog := [.readReq 0x10 8] }
      (fun t => t.outQ == [0, 0x10, 1]) = true := by decide

/-- V25. -/
theorem test_readResp :
    goesTo (exec (.readResp 4 0) { base with outstanding := some 1, inQ := [77] })
      { base with results := [(0, [77])], hpc := 1 } = true := by decide

/-- V26: no partial result is written. -/
theorem test_readResp_partial :
    goesTo (exec (.readResp 8 0) { base with outstanding := some 2, inQ := [11], results := [(0, [99])] })
      { base with outstanding := some 2, rdBuf := [11], results := [(0, [99])] } = true := by decide

/-- V20 after its request: `read` takes its count and no more. -/
theorem test_read :
    goesTo (exec (.read 0x1000 8 0) { base with inQ := [11, 22, 33] })
      { base with outQ := [0, 0x1000, 0, 1, 0], inQ := [33], results := [(0, [11, 22])], hpc := 2 } = true := by
  decide

/-- V10: `read` faults on its first line. -/
theorem test_read_overlap :
    goesTo (exec (.read 0x1000 4 0) { base with outstanding := some 2 })
      { base with outstanding := some 2, fault := some .readOverlap } = true := by decide

/-- V30, V32. -/
theorem test_startProgram :
    goesTo (exec .startProgram { base with outstanding := some 3 })
      { base with outstanding := some 3, outQ := [1, 0x02000000, 0, 0, 0, 1], hpc := 1 } = true := by decide

/-- V31. -/
theorem test_reset :
    goesTo (exec .reset base)
      { base with outQ := [1, 0x3000, 0, 0, 0, 0, 1, 0x3004, 0, 0, 0, 0], hpc := 1 } = true := by decide

/-- V50. -/
theorem test_yield : goesTo (exec .yield base) { base with ctx := .target, hpc := 1 } = true := by decide

/-- V51. -/
theorem test_idle :
    goesTo (exec .idle { base with prog := [.yield], hpc := 1 })
      { base with prog := [.yield], hpc := 1, ctx := .target } = true := by decide

/-- An idle step is not the host's while a line is left (R186). -/
theorem test_idle_early : stopsAt (exec .idle { base with prog := [.yield] }) .notIdle = true := by decide

/-- R161, C1: the offer keeps the word. -/
theorem test_offer :
    goesTo (exec .offerOutboundWord { turn with outQ := [1, 2] }) { turn with outQ := [1, 2] } = true := by decide

/-- R162. -/
theorem test_accept :
    goesTo (exec (.acceptInboundWord 5) { turn with inQ := [4] })
      { turn with inQ := [4, 5], recvLog := [5] } = true := by decide

/-- R163, R164: both halves. -/
theorem test_channelStep :
    goesTo (exec (.channelStep true true 9) { turn with outQ := [1, 2] })
      { turn with outQ := [2], sentLog := [1], inQ := [9], recvLog := [9] } = true := by decide

/-- V42: a word that is not offered is not taken. -/
theorem test_channelStep_empty : goesTo (exec (.channelStep true false 9) turn) turn = true := by decide

/-- V44. -/
theorem test_targetTurn :
    goesTo (exec (.targetTurn true true 9) { turn with outQ := [1] })
      { base with sentLog := [1], inQ := [9], recvLog := [9], turns := 1 } = true := by decide

/-- V41: an offered word that is not accepted stays. -/
theorem test_targetTurn_refused :
    goesTo (exec (.targetTurn false false 9) { turn with outQ := [1, 2] })
      { base with outQ := [1, 2], turns := 1 } = true := by decide

/-- R81: response words arrive in order behind the words at hand. -/
theorem test_readResponse :
    goesTo (exec (.readResponse [5, 6]) { turn with inQ := [4] })
      { turn with inQ := [4, 5, 6], recvLog := [5, 6] } = true := by decide

/-- R101 from the wire row: two words. -/
theorem test_wireRead_issued :
    goesTo (exec (.wireRead 0x1000 2) base)
      { base with outQ := [0, 0x1000, 0, 1, 0], outstanding := some 2, hpc := 1 } = true := by decide

/-- V70: the reference target reads across the top of its address space. -/
theorem test_wireRead_executed :
    goesTo
      (exec (.wireRead 0xFFFFFFFFFFFFFFFC 2)
        { echo with target := { RefTarget.initial with mem := [(0, 2), (0xFFFFFFFFFFFFFFFC, 1)] } })
      { echo with target := { RefTarget.initial with mem := [(0, 2), (0xFFFFFFFFFFFFFFFC, 1)], tx := [1, 2] } } =
      true := by decide

/-- V12 from the wire row. -/
theorem test_wireWrite_issued :
    goesTo (exec (.wireWrite 0x2000 1 [0xDEADBEEF]) base)
      { base with outQ := [1, 0x2000, 0, 0, 0, 0xDEADBEEF], hpc := 1 } = true := by decide

/-- V70: the reference target stores across the top of its address space. -/
theorem test_wireWrite_executed :
    goesTo (exec (.wireWrite 0xFFFFFFFFFFFFFFFC 2 [1, 2]) echo)
      { echo with target := { RefTarget.initial with mem := [(0, 2), (0xFFFFFFFFFFFFFFFC, 1)] } } = true := by
  decide

/-- V60. -/
theorem test_reservedHeader :
    goesTo (exec (.reservedHeader 7) echo)
      { echo with target := { RefTarget.initial with tfault := some .illegalCommand } } = true := by decide

theorem test_reservedHeader_elsewhere : refuses (exec (.reservedHeader 7) base) .reservedHeader = true := by decide

/-- V52. -/
theorem test_faulted_step :
    stopsAt (step { base with fault := some .readOverlap, prog := [.yield] }) (.halted .readOverlap) = true := by
  decide

/-- V61 to V66: the stream parser. -/
theorem test_parser :
    parseStream cfg0 [0, 0x1000, 0] = .ok ([], .len .read 0x1000 0 0) ∧
    parseStream cfg0 [0, 0x1000, 0, 1, 0] = .ok ([.read 0x1000 2], .hdr) ∧
    parseStream cfg0 [1, 0x2000, 0, 0, 0] = .ok ([], .pay 0x2000 1 0 []) ∧
    parseStream cfg0 [1, 0x2000, 0, 0, 0, 0xDEADBEEF] = .ok ([.write 0x2000 1 [0xDEADBEEF]], .hdr) ∧
    parseStream cfg0 [0, 0, 0, 0xFFFFFFFF, 0xFFFFFFFF] = .ok ([.read 0 (2 ^ 64)], .hdr) ∧
    parseStream cfg0 [1] = .ok ([], .addr .write 0 0) ∧
    parseStream cfg0 [7] = .error .illegalCommand := by decide

/-- A table row's word, loaded after reset, is the instruction the next step runs. -/
theorem test_loaded_word :
    goesTo (step (base.withFetchWord 32 0))
      { base with prog := [.wireRead 0 1], outQ := [0, 0, 0, 0, 0], outstanding := some 1, hpc := 1 } = true := by
  decide

/-- The same from the reset state itself, whose control addresses are OPEN. -/
theorem test_loaded_word_after_reset :
    after 1 (State.reset.withFetchWord 32 1) (fun t => t.outQ == [1, 0, 0, 0, 0, 0] && t.hpc == 1) = true := by decide

/-! ## Witnesses: for each obligation with hypotheses, a state and operands that meet them together -/

/-- The lowest and the highest operands of `read_req`: `2^64 − 1` for the address, `2^66` bytes for the length. -/
theorem test_witness_ReadReqPushesRead :
    base.HostReady ∧ 2 ^ 64 - 1 < base.cfg.addrBound ∧ 4 % 4 = 0 ∧ 4 / 4 - 1 < base.cfg.lenBound ∧
    2 ^ 66 % 4 = 0 ∧ 2 ^ 66 / 4 - 1 < base.cfg.lenBound ∧ base.outstanding = none ∧
    roomFor base base.cfg.headWords = true := by decide

theorem test_witness_WritePushesWrite :
    base.HostReady ∧ 2 ^ 64 - 1 < base.cfg.addrBound ∧ 4 % 4 = 0 ∧ 4 / 4 - 1 < base.cfg.lenBound ∧
    ([5] : List Word32).length = 4 / 4 ∧ roomFor base (base.cfg.headWords + 1) = true := by decide

/-- Both clauses at `n = 1`, the reading one also at the largest count, and a finite queue just deep enough. -/
theorem test_witness_WireCommandsAreIssued :
    base.HostReady ∧ 0 < base.cfg.addrBound ∧ 1 ≤ base.cfg.lenBound ∧ 2 ^ 64 ≤ base.cfg.lenBound ∧
    base.outstanding = none ∧ roomFor base base.cfg.headWords = true ∧
    ([5] : List Word32).length = 1 ∧ (depth 6).HostReady ∧ roomFor (depth 6) ((depth 6).cfg.headWords + 1) = true := by
  decide

theorem test_witness_WideAddressFaults : base.HostReady ∧ base.cfg.addrBound ≤ 2 ^ 64 := by decide

theorem test_witness_OddByteCountFaults : base.HostReady ∧ 1 % 4 ≠ 0 ∧ 2 ^ 64 - 1 < base.cfg.addrBound := by decide

theorem test_witness_ZeroByteCountFaults : base.HostReady ∧ 2 ^ 64 - 1 < base.cfg.addrBound := by decide

theorem test_witness_OverlongCountFaults :
    base.HostReady ∧ base.cfg.lenBound ≤ (2 ^ 64 + 1) - 1 ∧ 0 < base.cfg.addrBound := by decide

theorem test_witness_PayloadLengthFaults :
    base.HostReady ∧ 0 < base.cfg.addrBound ∧ 2 - 1 < base.cfg.lenBound ∧ ([5] : List Word32).length ≠ 2 := by decide

theorem test_witness_SecondReadFaults :
    ({ base with outstanding := some 2 } : State).HostReady ∧ 0 < base.cfg.addrBound ∧ 1 - 1 < base.cfg.lenBound ∧
    ({ base with outstanding := some 2 } : State).outstanding ≠ none := by decide

/-- No read outstanding, and a read of another count. -/
theorem test_witness_UnmatchedDrainFaults :
    base.HostReady ∧ 1 - 1 < base.cfg.lenBound ∧ base.outstanding ≠ some 1 ∧
    ({ base with outstanding := some 2 } : State).HostReady ∧
    ({ base with outstanding := some 2 } : State).outstanding ≠ some 1 := by decide

/-- Each clause one word short of the room it needs. -/
theorem test_witness_FullQueueStalls :
    (depth 4).HostReady ∧ 0 < (depth 4).cfg.addrBound ∧ 1 - 1 < (depth 4).cfg.lenBound ∧
    (depth 4).outstanding = none ∧ roomFor (depth 4) (depth 4).cfg.headWords = false ∧
    (depth 5).HostReady ∧ ([5] : List Word32).length = 1 ∧
    roomFor (depth 5) ((depth 5).cfg.headWords + 1) = false ∧
    (depth 11).HostReady ∧ roomFor (depth 11) (2 * ((depth 11).cfg.headWords + 1)) = false := by decide

/-- A blocked read, one that goes on and one that completes. -/
theorem test_witness_ReadRespMovesOneWord :
    ({ base with outstanding := some 2, inQ := [] } : State).HostReady ∧ 2 - 1 < base.cfg.lenBound ∧
    ({ base with outstanding := some 2, inQ := [7] } : State).HostReady ∧
    ({ base with outstanding := some 2, inQ := [7] } : State).rdBuf.length + 1 ≠ 2 ∧
    ({ base with outstanding := some 2, inQ := [7], rdBuf := [6] } : State).HostReady ∧
    ({ base with outstanding := some 2, inQ := [7], rdBuf := [6] } : State).rdBuf.length + 1 = 2 := by decide

/-- `base` on the line `read_resp 8 -> b0` of a READ of two words, one of them collected. -/
abbrev waiting : State := { base with prog := [.readResp 8 0], outstanding := some 2, rdBuf := [11] }

/-- Its read's bookkeeping is in order (R38). -/
theorem waiting_pending : waiting.PendingReadOk := ⟨by decide, by decide⟩

theorem test_witness_ReadRespDrainsExactlyItsWords :
    ({ waiting with inQ := [22] } : State).HostReady ∧ ({ waiting with inQ := [22] } : State).PendingReadOk ∧
    2 - 1 < waiting.cfg.lenBound ∧ waiting.outstanding = some 2 ∧
    (programLines waiting)[waiting.hpc]? = some (.readResp (4 * 2) 0) ∧
    2 - waiting.rdBuf.length ≤ ({ waiting with inQ := [22] } : State).inQ.length :=
  ⟨by decide, waiting_pending, by decide, by decide, by decide, by decide⟩

/-- Exactly the words asked for, and one fewer. -/
theorem test_witness_ReadRequestsThenDrains :
    ({ base with inQ := [7] } : State).HostReady ∧ 0 < base.cfg.addrBound ∧ 1 - 1 < base.cfg.lenBound ∧
    2 - 1 < base.cfg.lenBound ∧ base.outstanding = none ∧ base.rdBuf = [] ∧
    roomFor base base.cfg.headWords = true ∧ 1 ≤ ({ base with inQ := [7] } : State).inQ.length ∧
    ({ base with inQ := [7] } : State).inQ.length < 2 := by decide

theorem test_witness_ReadIsItsTwoLines :
    ({ base with prog := [.read 0x1000 8 0] } : State).HostReady ∧
    (programLines { base with prog := [.read 0x1000 8 0] })[0]? = some (.readReq 0x1000 8) ∧
    (programLines { base with prog := [.read 0x1000 8 0] })[0 + 1]? = some (.readResp 8 0) := by decide

/-- A turn without a word, and then a turn that delivers one. -/
theorem test_witness_UnansweredReadWaits :
    ({ waiting with draws := [⟨true, false, 0⟩] ++ [⟨false, true, 5⟩] } : State).HostReady ∧
    2 - 1 < waiting.cfg.lenBound ∧ waiting.outstanding = some 2 ∧
    (programLines waiting)[waiting.hpc]? = some (.readResp (4 * 2) 0) ∧ waiting.inQ = [] ∧
    waiting.collaborator = .external ∧ ∀ d ∈ [(⟨true, false, 0⟩ : Draw)], d.inValid = false := by decide

/-- The last word comes with the last draw. -/
theorem test_witness_AnsweredReadCompletes_scripted :
    ({ waiting with draws := [⟨true, false, 0⟩, ⟨false, true, 22⟩] } : State).HostReady ∧
    waiting.PendingReadOk ∧ 2 - 1 < waiting.cfg.lenBound ∧ waiting.outstanding = some 2 ∧
    (programLines waiting)[waiting.hpc]? = some (.readResp (4 * 2) 0) ∧ waiting.collaborator = .external ∧
    2 ≤ waiting.rdBuf.length + waiting.inQ.length + (arrivals [⟨true, false, 0⟩, ⟨false, true, 22⟩]).length :=
  ⟨by decide, waiting_pending, by decide, by decide, by decide, by decide, by decide⟩

/-- `waiting` with its READ sent and the word it has collected received: the last word comes in the second turn. -/
abbrev asked : State :=
  { waiting with
    sentLog := [0, 0x1000, 0, 1, 0], recvLog := [11], draws := [⟨true, false, 0⟩, ⟨false, true, 22⟩] }

/-- The one READ sent asks for two words: no other commands have these words. -/
theorem asked_demand {cmds : List Command} (hw : ∀ x ∈ cmds, commandWf cfg0 x = true)
    (h : [0, 0x1000, 0, 1, 0] = cmds.flatMap (encCommand cfg0)) : demanded cmds = 2 := by
  cases cmds with
  | nil => simp at h
  | cons x rest =>
    cases x with
    | write a n p => simp [encCommand, encWrite] at h
    | read a n =>
      obtain ⟨-, h1, hn⟩ := commandWf_read.1 (hw _ (List.mem_cons_self))
      simp only [List.flatMap_cons, encCommand, encRead, chunks, List.cons_append, List.nil_append,
        List.cons.injEq] at h
      obtain ⟨-, -, -, hlo, hhi, hrest⟩ := h
      have hr : rest = [] := by
        cases rest with
        | nil => rfl
        | cons y ys => cases y <;> simp [encCommand, encRead, encWrite] at hrest
      have hlo : 1 = (n - 1) % 4294967296 := (congrArg BitVec.toNat hlo).trans (BitVec.toNat_ofNat ..)
      have hhi : 0 = (n - 1) / 4294967296 % 4294967296 := (congrArg BitVec.toNat hhi).trans (BitVec.toNat_ofNat ..)
      have hn : n ≤ 4294967296 * 4294967296 := hn
      subst hr
      simp only [demanded_read, demanded_nil]
      omega

/-- With two words received, nothing is owed for that READ. -/
theorem asked_settled {t : State} (hc : t.cfg = cfg0) (hq : t.sentLog ++ t.outQ = [0, 0x1000, 0, 1, 0])
    (hr : 2 ≤ t.recvLog.length) : ¬ TargetOwes t := by
  rintro ⟨cmds, ⟨hw, hi⟩, h⟩
  rw [hc] at hw
  rw [hc, hq] at hi
  have := asked_demand hw hi
  omega

/-- The states of an idle host that asked for two words and has them: every step keeps them so. -/
def Settled (t : State) : Prop :=
  (programLines t).length ≤ t.hpc ∧ t.cfg = cfg0 ∧ t.sentLog ++ t.outQ = [0, 0x1000, 0, 1, 0] ∧ 2 ≤ t.recvLog.length

theorem settled_step (s t : State) (h : Settled s) (hst : step s = .next t) : Settled t := by
  obtain ⟨hl, hc, hq, hr⟩ := h
  have none_left : ∀ {i}, (programLines s)[s.hpc]? ≠ some i := by
    intro i hi
    exact absurd (line_lt hi) (by omega)
  obtain ⟨-, hcase⟩ := step_cases hst
  cases hcase with
  | raised _ i hi => exact absurd hi none_left
  | issuedRead _ i hi => exact absurd hi none_left
  | issuedWrite _ i hi => exact absurd hi none_left
  | started _ hi => exact absurd hi none_left
  | released _ hi => exact absurd hi none_left
  | blocked _ b k hi => exact absurd hi none_left
  | collected _ b k hi => exact absurd hi none_left
  | yielded _ hi => exact absurd hi none_left
  | idled _ _ ht => subst ht; exact ⟨hl, hc, hq, hr⟩
  | turned _ r v w _ ht =>
    subst ht
    rw [channelStep_eq]
    refine ⟨hl, hc, ?_, by simp; omega⟩
    rw [← hq]
    cases r <;> cases s.outQ <;> simp

/-- The state `asked` is in after four steps: the second word has come. -/
abbrev answered : State :=
  { asked with recvLog := [11, 22], inQ := [22], draws := [], turns := 2 }

theorem asked_progress : TargetProgress asked := by
  intro k t hk ho
  have four : core.run 4 asked = .next answered := rfl
  by_cases h4 : k < 4
  · refine ⟨4 - k, .inl ⟨answered, by rw [show k + (4 - k) = 4 by omega]; exact four, ?_⟩⟩
    have hlen : ∀ k < 4, after k asked (fun t => t.recvLog == [11]) = true := by decide
    have := hlen k h4
    simp only [after, hk, beq_iff_eq] at this
    rw [this]
    decide
  · obtain ⟨i, rfl⟩ : ∃ i, k = 4 + i := ⟨k - 4, by omega⟩
    obtain ⟨u, hu, ht⟩ := run_prefix hk
    rw [four] at hu
    cases hu
    cases i with
    | zero => cases ht; exact absurd ho (asked_settled rfl rfl (by decide))
    | succ i =>
      obtain ⟨v, hv, ht⟩ := run_succ_cases ht
      have hs : Settled v := by
        have : step answered =
            .next { answered with
                      inQ := [], rdBuf := [], outstanding := none, hpc := 1, results := [(0, [11, 22])] } := rfl
        rw [this] at hv
        cases hv
        exact ⟨by decide, rfl, rfl, by decide⟩
      obtain ⟨-, hc, hq, hr⟩ := run_keeps settled_step hs ht
      exact absurd ho (asked_settled hc hq hr)

theorem test_witness_AnsweredReadCompletes :
    asked.HostReady ∧ asked.PendingReadOk ∧ 2 - 1 < asked.cfg.lenBound ∧ asked.outstanding = some 2 ∧
    (programLines asked)[asked.hpc]? = some (.readResp (4 * 2) 0) ∧ asked.ReadsBalance ∧ TargetProgress asked :=
  ⟨by decide, waiting_pending, by decide, by decide, by decide,
    ⟨[.read 0x1000 2], ⟨by decide, by decide⟩, by decide⟩, asked_progress⟩

/-- An unbounded queue, and a finite one just deep enough. -/
theorem test_witness_StartProgramPokesOnce :
    base.HostReady ∧ base.cfg.wf = true ∧ roomFor base (base.cfg.headWords + 1) = true ∧
    (depth 6).HostReady ∧ roomFor (depth 6) ((depth 6).cfg.headWords + 1) = true := by decide

theorem test_witness_ResetPokesTwice :
    base.HostReady ∧ roomFor base (2 * (base.cfg.headWords + 1)) = true ∧
    (depth 12).HostReady ∧ roomFor (depth 12) (2 * ((depth 12).cfg.headWords + 1)) = true := by decide

/-- An empty Outbound Queue and one with a word. -/
theorem test_witness_ChannelStepIsTwoHandshakes :
    turn.TargetReady ∧ turn.outQ = [] ∧ ({ turn with outQ := [1] } : State).TargetReady ∧
    ({ turn with outQ := [1] } : State).outQ = 1 :: [] := by decide

theorem test_witness_OfferChangesNothing : ({ turn with outQ := [1] } : State).TargetReady := by decide

theorem test_witness_AcceptAppendsTheWord : ({ turn with inQ := [1] } : State).TargetReady := by decide

theorem test_witness_ResponseArrivesUnframed : ({ turn with inQ := [1] } : State).TargetReady := by decide

/-- With either collaborator. -/
theorem test_witness_TargetTurnIsChannelStepThenSwitch : turn.TargetReady ∧ echo.TargetReady := by decide

theorem test_witness_YieldSwitches : ({ base with prog := [.yield] } : State).HostReady := by decide

/-- Past the last line, and on it. -/
theorem test_witness_IdleOnlySwitches :
    ({ base with prog := [.yield], hpc := 1 } : State).HostReady ∧
    (programLines { base with prog := [.yield], hpc := 1 }).length ≤ 1 ∧
    ({ base with prog := [.yield] } : State).HostReady ∧ 0 < (programLines { base with prog := [.yield] }).length := by
  decide

/-- A line, no line, a scripted turn and a free one. -/
theorem test_witness_StepRunsTheSelectedOperation :
    (base.ctx = .host ∧ (programLines { base with prog := [.yield] })[0]? = some .yield) ∧
    (base.ctx = .host ∧ (programLines base).length ≤ base.hpc) ∧
    (turn.ctx = .target ∧ turn.collaborator = .external ∧
      ({ turn with draws := [⟨true, false, 3⟩] } : State).draws = ⟨true, false, 3⟩ :: []) ∧
    (turn.ctx = .target ∧ turn.collaborator = .external ∧ turn.draws = []) := by decide

theorem test_witness_LoadedWordRunsNext :
    decodeTableWordAt base.cfg 32 1 = some (.wireWrite 0 1 [0]) := by decide

/-- The three cases of a switch: a blocked read, a yield, an idle step. -/
theorem test_witness_HostSwitchesInThreeCases :
    (waiting.HostReady ∧ checkLen waiting.cfg 8 = .ok 2 ∧ waiting.outstanding = some 2 ∧ waiting.inQ = []) ∧
    ({ base with prog := [.yield] } : State).HostReady ∧ (base.HostReady ∧ (programLines base).length ≤ base.hpc) := by
  decide

theorem test_witness_TargetTurnReturnsToHost : turn.TargetReady ∧ echo.TargetReady := by decide

theorem test_witness_HostTurnIsFinite :
    waiting.HostReady ∧ waiting.cfg.queueDepth = none ∧ programWf waiting.prog = true := by decide

/-- Idle: as many accepting draws as words, with a refusing one between. Blocked: one word short of completing. -/
theorem test_witness_IdleQueueDrains :
    ({ waiting with outQ := [1], draws := [⟨true, false, 0⟩] } : State).HostReady ∧ 2 - 1 < waiting.cfg.lenBound ∧
    waiting.outstanding = some 2 ∧ (programLines waiting)[waiting.hpc]? = some (.readResp (4 * 2) 0) ∧
    waiting.rdBuf.length + waiting.inQ.length + (arrivals [⟨true, false, 0⟩]).length < 2 ∧
    ([1] : List Word32).length ≤ ([⟨true, false, 0⟩].filter fun d : Draw => d.outReady).length ∧
    ({ base with outQ := [1, 2], draws := [⟨true, false, 0⟩, ⟨false, false, 0⟩, ⟨true, true, 9⟩] } : State).AtIdle ∧
    base.collaborator = .external ∧
    ([1, 2] : List Word32).length ≤
      ([⟨true, false, 0⟩, ⟨false, false, 0⟩, ⟨true, true, 9⟩].filter fun d : Draw => d.outReady).length := by decide

theorem test_witness_FaultedStateHasNoStep :
    ({ base with fault := some .readMismatch } : State).fault = some .readMismatch := by decide

theorem test_witness_FaultDiscardsTheStep :
    base.fault = none ∧ exec (.readResp 6 0) base = .next { base with fault := some .badByteCount } :=
  ⟨rfl, rfl⟩

theorem test_witness_IllegalCommandIsNeverTheBlocks :
    exec (.readResp 6 0) base = .next { base with fault := some .badByteCount } := rfl

theorem test_witness_OutOfTurnHasNoStep :
    turn.fault = none ∧ turn.ctx = .target ∧ base.fault = none ∧ base.ctx = .host := by decide

/-- `base` meets the invariant. -/
theorem base_inv : base.Inv :=
  ⟨by decide, rfl, Nat.zero_le _, List.Pairwise.nil, ⟨List.Pairwise.nil, by decide⟩, by decide, trivial⟩

theorem test_witness_InvariantIsKept :
    ({ base with prog := [.yield] } : State).Inv ∧
    ({ base with prog := [.yield] } : State).cfg.wf = true ∧ ({ base with prog := [.yield] } : State).ReadsBalance ∧
    step { base with prog := [.yield] } = .next { base with prog := [.yield], ctx := .target, hpc := 1 } :=
  ⟨⟨base_inv.1, base_inv.2.1, Nat.zero_le _, base_inv.2.2.2⟩, base_inv.1, ⟨[], ⟨by decide, rfl⟩, rfl⟩, rfl⟩

theorem test_witness_OutboundQueueIsFifo :
    (core.run 1 base : Result) = .next { base with ctx := .target } := rfl

theorem test_witness_InboundQueueIsFifo :
    ({ base with recvLog := [1, 2], inQ := [2] } : State).recvLog = [1] ++ [2] ∧
    (core.run 1 { base with recvLog := [1, 2], inQ := [2] } : Result) =
      .next { base with recvLog := [1, 2], inQ := [2], ctx := .target } := ⟨rfl, rfl⟩

/-- A step of either context. -/
theorem test_witness_EachContextMovesItsOwnWay :
    step base = .next { base with ctx := .target } ∧ base.ctx = .host ∧
    step { turn with outQ := [1], draws := [⟨true, true, 5⟩] } =
      .next { base with sentLog := [1], inQ := [5], recvLog := [5], turns := 1 } ∧ turn.ctx = .target :=
  ⟨rfl, rfl, rfl, rfl⟩

theorem test_witness_OnlyEncodeReadSetsOutstanding :
    exec (.readReq 0 4) base = .next { base with outQ := [0, 0, 0, 0, 0], outstanding := some 1, hpc := 1 } ∧
    some 1 ≠ base.outstanding := ⟨rfl, by decide⟩

theorem test_witness_ProgramAndParametersAreFixed :
    exec .yield base = .next { base with ctx := .target, hpc := 1 } := rfl

/-- The word at hand differs, and the word to come. -/
theorem test_witness_InboundValuesSteerNothing :
    SameButInboundValues { waiting with inQ := [5], recvLog := [5], draws := [⟨true, true, 6⟩] }
      { waiting with inQ := [7], recvLog := [7], draws := [⟨true, true, 8⟩] } ∧
    step { waiting with inQ := [5], recvLog := [5], draws := [⟨true, true, 6⟩] } =
      .next { waiting with
                recvLog := [5], draws := [⟨true, true, 6⟩], rdBuf := [], outstanding := none, hpc := 1,
                results := [(0, [11, 5])] } := ⟨by decide, rfl⟩

/-- Boundary values of the chunks. -/
theorem test_witness_ChunksReassemble : 2 ^ 64 - 1 < 2 ^ (32 * 2) ∧ 0 < 2 ^ (32 * 0) ∧ 1 < 2 := by decide

/-- Each kind of wire form, at the ends of its ranges. -/
theorem test_witness_DecodeInvertsEncode :
    cfg0.wf = true ∧ Instr.wf cfg0 (.wireRead (2 ^ 64 - 1) (2 ^ 64)) = true ∧
    Instr.wf cfg0 (.wireWrite 0 1 [5]) = true ∧ Instr.wf cfg0 (.reservedHeader 2) = true ∧
    Instr.hasHeader (.wireRead (2 ^ 64 - 1) (2 ^ 64)) = true ∧ Instr.hasHeader (.wireWrite 0 1 [5]) = true ∧
    Instr.hasHeader (.reservedHeader 2) = true ∧ Instr.wf cfg0 (.readResponse [5]) = true := by decide

theorem test_witness_EncodingIsInjective :
    cfg0.wf = true ∧ commandWf cfg0 (.write 0 1 [5]) = true ∧
    encCommand cfg0 (.write 0 1 [5]) <+: encCommand cfg0 (.write 0 1 [5]) := by decide

/-- A stream of two commands, and a proper beginning of one. -/
theorem test_witness_ParserInvertsEncoder :
    cfg0.wf = true ∧ (∀ x ∈ [Command.write 0 1 [5], .read (2 ^ 64 - 1) (2 ^ 64)], commandWf cfg0 x = true) ∧
    [1, 0, 0] <+: encCommand cfg0 (.write 0 1 [5]) ∧ [1, 0, 0] ≠ encCommand cfg0 (.write 0 1 [5]) := by decide

theorem test_witness_BytePackingInverts :
    packBytes [1, 2, 3, 4] = some [0x04030201] ∧ ([1, 2, 3, 4] : List Byte).length % 4 = 0 ∧ 3 < 4 := by decide

theorem test_witness_TargetReadAnswers : echo.TargetReady ∧ echo.collaborator = .reference := by decide

/-- A memory with an entry. -/
theorem test_witness_TargetWriteStores :
    echo.TargetReady ∧ echo.collaborator = .reference ∧
    Memory.wf ({ echo with target := { RefTarget.initial with mem := [(0, 2)] } } : State).target.mem ∧
    ([5] : List Word32).length = 1 := by decide

theorem test_witness_TargetEchoesAPayload :
    echo.TargetReady ∧ echo.collaborator = .reference ∧ Memory.wf echo.target.mem ∧
    ([1, 2] : List Word32).length = 2 ∧ 4 * 2 ≤ echo.cfg.addrBound := by decide

/-- Header 2 in each of the three places. -/
theorem test_witness_ReservedHeaderStopsTheTarget :
    (2 : Word32) ≠ cfg0.opRead ∧ (2 : Word32) ≠ cfg0.opWrite ∧ echo.TargetReady ∧ echo.collaborator = .reference ∧
    turn.TargetReady ∧ turn.collaborator = .external ∧ base.HostReady := by decide

theorem test_witness_ExternalTargetIsUnspecified : turn.TargetReady ∧ turn.collaborator = .external := by decide

/-- A target with a word to send, one with none, and one that has stopped. -/
theorem test_witness_ReferenceTargetDraws :
    echo.TargetReady ∧ echo.collaborator = .reference ∧
    ({ echo with target := { RefTarget.initial with tx := [5] } } : State).TargetReady ∧
    ({ RefTarget.initial with tx := [5] } : RefTarget).tx = 5 :: [] ∧
    ({ echo with target := { RefTarget.initial with tfault := some .illegalCommand } } : State).TargetReady ∧
    ({ RefTarget.initial with tfault := some .illegalCommand } : RefTarget).tfault ≠ none := by decide

/-- `base` with the reference target, about to poke the start address. -/
abbrev poking : State := { base with collaborator := .reference, prog := [.startProgram] }

theorem poking_wire : poking.WireInStep := ⟨by decide, rfl, rfl, ⟨[], by decide, rfl⟩, [], rfl⟩

theorem poking_step :
    step poking = .next { poking with outQ := [1, 0x02000000, 0, 0, 0, 1], hpc := 1 } := rfl

theorem test_witness_WireStaysInStep :
    poking.WireInStep ∧ step poking = .next { poking with outQ := [1, 0x02000000, 0, 0, 0, 1], hpc := 1 } :=
  ⟨poking_wire, poking_step⟩

theorem test_witness_EchoStaysInStep :
    poking.WireInStep ∧ poking.EchoInStep [] ∧
    step poking = .next { poking with outQ := [1, 0x02000000, 0, 0, 0, 1], hpc := 1 } :=
  ⟨poking_wire, ⟨rfl, rfl, [], rfl, rfl⟩, poking_step⟩

theorem test_witness_ReferenceTargetIsHonest :
    cfg0.wf = true := by decide

end Sys2Proof.Machine.Tests
end

/-! ## Chunks and values (R11) -/

namespace Sys2Proof

theorem wordBase_mul_two_pow (K : Nat) : wordBase * 2 ^ (32 * K) = 2 ^ (32 * (K + 1)) := by
  rw [wordBase, ← Nat.pow_add]
  congr 1
  omega

/-- `K` chunks hold the low `32·K` bits of a value. -/
theorem unchunk_chunks_eq_mod (K v : Nat) : unchunk (chunks K v) = v % 2 ^ (32 * K) := by
  induction K generalizing v with
  | zero => simp [chunks, unchunk, Nat.mod_one]
  | succ K ih =>
    calc unchunk (chunks (K + 1) v)
        = v % wordBase + wordBase * (v / wordBase % 2 ^ (32 * K)) := by
          simp [chunks, unchunk, ih, wordBase]
      _ = v % (wordBase * 2 ^ (32 * K)) := (Nat.mod_mul).symm
      _ = v % 2 ^ (32 * (K + 1)) := by rw [wordBase_mul_two_pow]

/-- A value that fits in `K` words is read back from its chunks. -/
theorem unchunk_chunks {K v : Nat} (h : v < 2 ^ (32 * K)) : unchunk (chunks K v) = v := by
  rw [unchunk_chunks_eq_mod, Nat.mod_eq_of_lt h]

/-- Chunk `k` is the field of bits `32k+31` to `32k`. -/
theorem chunks_getElem? {K k : Nat} (v : Nat) (h : k < K) :
    (chunks K v)[k]? = some (BitVec.ofNat 32 (v / 2 ^ (32 * k))) := by
  induction K generalizing v k with
  | zero => omega
  | succ K ih =>
    cases k with
    | zero => simp [chunks]
    | succ k =>
      rw [chunks, List.getElem?_cons_succ, ih _ (by omega), Nat.div_div_eq_div_mul, wordBase_mul_two_pow]

theorem unchunk_lt (ws : List Word32) : unchunk ws < 2 ^ (32 * ws.length) := by
  induction ws with
  | nil => simp [unchunk]
  | cons w ws ih =>
    have hw : w.toNat < wordBase := w.isLt
    calc unchunk (w :: ws)
        = w.toNat + wordBase * unchunk ws := rfl
      _ < wordBase * (unchunk ws + 1) := by rw [Nat.mul_succ]; omega
      _ ≤ wordBase * 2 ^ (32 * ws.length) := Nat.mul_le_mul_left _ ih
      _ = 2 ^ (32 * (w :: ws).length) := by rw [wordBase_mul_two_pow, List.length_cons]

/-- Every list of words is the chunks of its value. -/
theorem chunks_unchunk (ws : List Word32) : chunks ws.length (unchunk ws) = ws := by
  induction ws with
  | nil => rfl
  | cons w ws ih =>
    have hhead : BitVec.ofNat 32 (w.toNat + wordBase * unchunk ws) = w := by
      apply BitVec.eq_of_toNat_eq
      rw [BitVec.toNat_ofNat, wordBase, Nat.add_mul_mod_self_left, Nat.mod_eq_of_lt w.isLt]
    have htail : (w.toNat + wordBase * unchunk ws) / wordBase = unchunk ws := by
      rw [wordBase, Nat.add_mul_div_left _ _ (Nat.two_pow_pos 32), Nat.div_eq_of_lt w.isLt, Nat.zero_add]
    rw [List.length_cons, unchunk, chunks, hhead, htail, ih]

end Sys2Proof

namespace Sys2Proof.Machine

/-- Settles O46: both inverses and the fields, each by induction on the words (R11). -/
theorem chunksReassemble : Obligations.ChunksReassemble :=
  ⟨fun _ _ h => unchunk_chunks h, fun _ v _ h => chunks_getElem? v h,
    fun ws => ⟨chunks_unchunk ws, unchunk_lt ws⟩⟩

/-! ## The parameters of a run are fixed (R7, R182) -/

/-- `t` belongs to the run of `s`: its parameters and its host program are those of `s` (R7). -/
def State.SameRun (s t : State) : Prop := t.cfg = s.cfg ∧ t.prog = s.prog

theorem State.SameRun.refl (s : State) : s.SameRun s := ⟨rfl, rfl⟩

theorem State.SameRun.trans {s t u : State} (h : s.SameRun t) (h' : t.SameRun u) : s.SameRun u :=
  ⟨h'.1.trans h.1, h'.2.trans h.2⟩

theorem encodeRead_sameRun {a b : Nat} {s t : State} (h : encodeRead a b s = .next t) : s.SameRun t := by
  obtain ⟨e, rfl⟩ | ⟨n, -, -, rfl⟩ := encodeRead_next h
  · exact ⟨rfl, rfl⟩
  · exact ⟨rfl, rfl⟩

theorem encodeWrite_sameRun {a b : Nat} {p : List Word32} {s t : State} (h : encodeWrite a b p s = .next t) :
    s.SameRun t := by
  obtain ⟨e, rfl⟩ | ⟨n, -, -, rfl⟩ := encodeWrite_next h
  · exact ⟨rfl, rfl⟩
  · exact ⟨rfl, rfl⟩

theorem collectWord_sameRun (n k : Nat) (w : Word32) (s : State) : s.SameRun (collectWord n k w s) := by
  by_cases h : s.rdBuf.length + 1 = n
  · rw [collectWord_last h]
    exact ⟨rfl, rfl⟩
  · rw [collectWord_more h]
    exact ⟨rfl, rfl⟩

theorem readResult_sameRun {b k : Nat} {s t : State} (h : readResult b k s = .next t) : s.SameRun t := by
  obtain ⟨e, rfl⟩ | ⟨n, -, -, ⟨-, rfl⟩ | ⟨w, q, -, rfl⟩⟩ := readResult_next h
  · exact ⟨rfl, rfl⟩
  · exact ⟨rfl, rfl⟩
  · exact collectWord_sameRun n k w { s with inQ := q }

/-- A drain is nothing, or one step of `read_result` and then nothing or a shorter drain (R122, R128). -/
theorem drainRead_succ_next {b k fuel : Nat} {s t : State} (h : drainRead b k (fuel + 1) s = .next t) :
    ∃ u, readResult b k s = .next u ∧ (t = u ∨ drainRead b k fuel u = .next t) := by
  rw [drainRead] at h
  split at h
  · rename_i u hu
    refine ⟨u, hu, ?_⟩
    split at h
    · exact .inr h
    · cases h
      exact .inl rfl
  · cases h
  · cases h

theorem drainRead_sameRun {b k fuel : Nat} {s t : State} (h : drainRead b k fuel s = .next t) : s.SameRun t := by
  induction fuel generalizing s with
  | zero =>
    cases h
    exact .refl _
  | succ fuel ih =>
    obtain ⟨u, hu, rfl | hd⟩ := drainRead_succ_next h
    · exact readResult_sameRun hu
    · exact (readResult_sameRun hu).trans (ih hd)

/-- `read` is its `read_req` line, and after it, unless that one faults, a drain (R87, R128). -/
theorem execRead_next {a b k : Nat} {s t : State} (h : execRead a b k s = .next t) :
    s.ctx = .host ∧ s.fault = none ∧ ∃ u, encodeRead a b s = .next u ∧
      ((u.fault ≠ none ∧ t = u) ∨ (u.fault = none ∧ drainRead b k (u.inQ.length + 1) u = .next t)) := by
  obtain ⟨hc, hf, h⟩ := whenHost_next h
  refine ⟨hc, hf, ?_⟩
  split at h
  · rename_i u hu
    refine ⟨u, hu, ?_⟩
    split at h
    · rename_i hn
      exact .inr ⟨hn, h⟩
    · rename_i hn
      cases h
      exact .inl ⟨hn, rfl⟩
  · cases h
  · cases h

theorem execRead_sameRun {a b k : Nat} {s t : State} (h : execRead a b k s = .next t) : s.SameRun t := by
  obtain ⟨-, -, u, hu, ⟨-, rfl⟩ | ⟨-, hd⟩⟩ := execRead_next h
  · exact encodeRead_sameRun hu
  · exact (encodeRead_sameRun hu).trans (drainRead_sameRun hd)

theorem channelStep_sameRun (r v : Bool) (w : Word32) (s : State) : s.SameRun (channelStep r v w s) := by
  rw [channelStep_eq]
  exact ⟨rfl, rfl⟩

theorem atReference_sameRun {s t : State} {why : Refusal} {act : RefTarget → RefTarget}
    (h : atReference s why act = .next t) : s.SameRun t := by
  obtain ⟨-, rfl⟩ := atReference_next h
  exact ⟨rfl, rfl⟩

/-- Whatever an instruction answers as a next state belongs to the same run. -/
theorem exec_sameRun {i : Instr} {s t : State} (h : exec i s = .next t) : s.SameRun t := by
  cases i with
  | wireRead a n =>
    obtain ⟨-, ⟨-, h⟩ | ⟨-, h⟩⟩ := byContext_next h
    · exact encodeRead_sameRun h
    · exact atReference_sameRun h
  | wireWrite a n p =>
    obtain ⟨-, ⟨-, h⟩ | ⟨-, h⟩⟩ := byContext_next h
    · exact encodeWrite_sameRun h
    · exact atReference_sameRun h
  | reservedHeader w =>
    obtain ⟨-, ⟨-, h⟩ | ⟨-, h⟩⟩ := byContext_next h
    · cases h
    · exact atReference_sameRun h
  | readReq a b =>
    obtain ⟨-, -, h⟩ := whenHost_next h
    exact encodeRead_sameRun h
  | write a b p =>
    obtain ⟨-, -, h⟩ := whenHost_next h
    exact encodeWrite_sameRun h
  | writeChunk a b p =>
    obtain ⟨-, -, h⟩ := whenHost_next h
    exact encodeWrite_sameRun h
  | readResp b k =>
    obtain ⟨-, -, h⟩ := whenHost_next h
    exact readResult_sameRun h
  | read a b k => exact execRead_sameRun h
  | startProgram =>
    obtain ⟨-, -, rfl⟩ := execStartProgram_next h
    exact ⟨rfl, rfl⟩
  | reset =>
    obtain ⟨-, -, rfl⟩ := execReset_next h
    exact ⟨rfl, rfl⟩
  | yield =>
    obtain ⟨-, -, h⟩ := whenHost_next h
    cases h
    exact ⟨rfl, rfl⟩
  | idle =>
    obtain ⟨-, -, h⟩ := whenHost_next h
    split at h
    · cases h
    · cases h
      exact ⟨rfl, rfl⟩
  | readResponse ws =>
    obtain ⟨-, -, h⟩ := whenTarget_next h
    rw [acceptWords_eq] at h
    cases h
    exact ⟨rfl, rfl⟩
  | offerOutboundWord =>
    obtain ⟨-, -, h⟩ := whenTarget_next h
    cases h
    exact .refl s
  | acceptInboundWord w =>
    obtain ⟨-, -, h⟩ := whenTarget_next h
    cases h
    exact ⟨rfl, rfl⟩
  | channelStep r v w =>
    obtain ⟨-, -, h⟩ := whenTarget_next h
    cases h
    exact channelStep_sameRun r v w s
  | targetTurn r v w =>
    obtain ⟨-, -, rfl⟩ := execTargetTurn_next h
    exact (channelStep_sameRun r v w s).trans ⟨rfl, rfl⟩

/-- Settles O44, from `exec_sameRun`. -/
theorem programAndParametersAreFixed : Obligations.ProgramAndParametersAreFixed :=
  fun _ _ _ h => exec_sameRun h

/-! ## An external target (R4(b), I16) -/

theorem atReference_external {s : State} (h : s.collaborator = .external) (why : Refusal)
    (act : RefTarget → RefTarget) : atReference s why act = .refused why := by
  simp [atReference, h]

theorem exec_wireRead (a n : Nat) (s : State) :
    exec (.wireRead a n) s =
      byContext s (encodeRead a (wordBytes * n) s) (atReference s .targetUnspecified (refLoad s.cfg a n)) := rfl

theorem exec_wireWrite (a n : Nat) (p : List Word32) (s : State) :
    exec (.wireWrite a n p) s =
      byContext s (encodeWrite a (wordBytes * n) p s) (atReference s .targetUnspecified (refStore s.cfg a p)) := rfl

/-- Settles O56: in the target context both rows go to the collaborator, and an external one is refused. -/
theorem externalTargetIsUnspecified : Obligations.ExternalTargetIsUnspecified := by
  rintro a n p s ⟨hc, hf⟩ hx
  constructor
  · rw [exec_wireRead, byContext_target hc hf, atReference_external hx]
  · rw [exec_wireWrite, byContext_target hc hf, atReference_external hx]

end Sys2Proof.Machine

namespace Sys2Proof.Machine

/-! ## Power-on (R39) -/

/-- Settles O37: every clause is a field of `State.reset`, or a signal computed from its empty queues. -/
theorem powerOnState : Obligations.PowerOnState :=
  ⟨rfl, rfl, rfl, rfl, rfl, rfl, fun _ => rfl, rfl, rfl, rfl, rfl, rfl, rfl⟩

theorem reset_target_ok : State.reset.target.Ok State.reset.cfg :=
  ⟨reset_memory_wf, fun _ h => absurd h List.not_mem_nil, trivial⟩

/-- Settles O39: the parameters are well formed whatever the OPEN addresses are, every list is empty, and no
command has been issued. -/
theorem invariantAtReset : Obligations.InvariantAtReset :=
  ⟨⟨Params.default_wf, rfl, Nat.zero_le _, List.Pairwise.nil, reset_target_ok⟩,
    [], ⟨fun _ h => absurd h List.not_mem_nil, rfl⟩, rfl⟩

/-! ## A full queue (I7, log 4) -/

theorem pushOut_full {s : State} {ws : List Word32} (h : roomFor s ws.length = false) (rest : State → Result) :
    pushOut ws s rest = .fault .queueFull := by
  simp [pushOut, h]

/-- Room for a second push after a first is room for both. -/
theorem roomFor_pushed (s : State) (ws : List Word32) (k : Nat) :
    roomFor { s with outQ := s.outQ ++ ws } k = roomFor s (ws.length + k) := by
  simp only [roomFor, List.length_append, Nat.add_assoc]

theorem pushOut_pushOut_full {s : State} {ws vs : List Word32} (h : roomFor s (ws.length + vs.length) = false)
    (rest : State → Result) : pushOut ws s (fun s1 => pushOut vs s1 rest) = .fault .queueFull := by
  by_cases hr : roomFor s ws.length = true
  · rw [pushOut_room hr, pushOut_full (by rw [roomFor_pushed, h])]
  · exact pushOut_full (Bool.eq_false_iff.2 hr) _

theorem encodeRead_full {a n : Nat} {s : State} (ha : a < s.cfg.addrBound) (h1 : 1 ≤ n)
    (h2 : n - 1 < s.cfg.lenBound) (ho : s.outstanding = none) (hr : roomFor s s.cfg.headWords = false) :
    encodeRead a (4 * n) s = .fault .queueFull := by
  rw [encodeRead, checkTransfer_words ha h1 h2]
  exact (if_neg (not_not.2 ho)).trans (pushOut_full (by rwa [encRead_length]) _)

theorem encodeWrite_full {a n : Nat} {p : List Word32} {s : State} (ha : a < s.cfg.addrBound) (h1 : 1 ≤ n)
    (h2 : n - 1 < s.cfg.lenBound) (hp : p.length = n) (hr : roomFor s (s.cfg.headWords + n) = false) :
    encodeWrite a (4 * n) p s = .fault .queueFull := by
  rw [encodeWrite, checkTransfer_words ha h1 h2]
  exact (if_neg (not_not.2 hp)).trans (pushOut_full (by rwa [encWrite_length, hp]) _)

/-- A `read` whose first line stops, stops there (R128). -/
theorem execRead_fault {a b k : Nat} {s : State} {r : Fault} (hc : s.ctx = .host) (hf : s.fault = none)
    (h : encodeRead a b s = .fault r) : execRead a b k s = .fault r := by
  rw [execRead, whenHost_ready hc hf, h]

theorem execStartProgram_full {s : State} (hc : s.ctx = .host) (hf : s.fault = none)
    (hr : roomFor s (s.cfg.headWords + 1) = false) : execStartProgram s = .fault .queueFull := by
  rw [execStartProgram, whenHost_ready hc hf]
  exact pushOut_full (by rwa [encWrite_length]) _

theorem execReset_full {s : State} (hc : s.ctx = .host) (hf : s.fault = none)
    (hr : roomFor s (2 * (s.cfg.headWords + 1)) = false) : execReset s = .fault .queueFull := by
  rw [execReset, whenHost_ready hc hf]
  refine pushOut_pushOut_full ?_ _
  rwa [encWrite_length, encWrite_length, List.length_singleton, ← Nat.two_mul]

/-- Settles O11: the forms of a READ stop where `encode_read` does, those of a WRITE where `encode_write` does, and
the two pokes at their own pushes. -/
theorem fullQueueStalls : Obligations.FullQueueStalls := by
  rintro a n k p s ⟨hc, hf⟩ ha h1 h2
  refine ⟨fun ho hr i hi => ?_, fun hp hr i hi => ?_, execStartProgram_full hc hf, execReset_full hc hf⟩
  · have hfull : encodeRead a (4 * n) s = .fault .queueFull := encodeRead_full ha h1 h2 ho hr
    simp only [List.mem_cons, List.not_mem_nil, or_false] at hi
    obtain rfl | rfl | rfl := hi
    · exact (whenHost_ready hc hf _).trans hfull
    · exact execRead_fault hc hf hfull
    · exact (byContext_host hc hf _ _).trans hfull
  · have hfull : encodeWrite a (4 * n) p s = .fault .queueFull := encodeWrite_full ha h1 h2 hp hr
    simp only [List.mem_cons, List.not_mem_nil, or_false] at hi
    obtain rfl | rfl | rfl := hi
    · exact (whenHost_ready hc hf _).trans hfull
    · exact (whenHost_ready hc hf _).trans hfull
    · exact (byContext_host hc hf _ _).trans hfull

/-! ## The two queues along a run (R38 (v) and (vi), R63, R90) -/

theorem pushedIn_line {s t : State} {i : Instr} (hc : s.ctx = .host) (hi : (programLines s)[s.hpc]? = some i)
    (hf : t.fault = none) : pushedIn s t = pushedBy s.cfg i := by
  rw [pushedIn, if_pos ⟨hc, hf⟩, fetch_line hc hi]

theorem pushedIn_raised {s t : State} {e : FaultCode} (h : t.fault = some e) : pushedIn s t = [] := by
  simp [pushedIn, h]

theorem pushedIn_end {s : State} (hc : s.ctx = .host) (hl : (programLines s).length ≤ s.hpc) (t : State) :
    pushedIn s t = [] := by
  simp [pushedIn, fetch_end hc hl, pushedBy]

theorem pushedIn_target {s : State} (hc : s.ctx = .target) (t : State) : pushedIn s t = [] := by
  simp [pushedIn, hc]

theorem poppedIn_target {s : State} (hc : s.ctx = .target) (t : State) : poppedIn s t = [] := by
  simp [poppedIn, hc]

@[simp] theorem mul_wordBytes_div (n : Nat) : 4 * n / wordBytes = n := Nat.mul_div_cancel_left n (by decide)

@[simp] theorem collectWord_outQ (n k : Nat) (w : Word32) (s : State) : (collectWord n k w s).outQ = s.outQ := by
  unfold collectWord; split <;> rfl
@[simp] theorem collectWord_inQ (n k : Nat) (w : Word32) (s : State) : (collectWord n k w s).inQ = s.inQ := by
  unfold collectWord; split <;> rfl
@[simp] theorem collectWord_fault (n k : Nat) (w : Word32) (s : State) :
    (collectWord n k w s).fault = s.fault := by
  unfold collectWord; split <;> rfl
@[simp] theorem collectWord_sentLog (n k : Nat) (w : Word32) (s : State) :
    (collectWord n k w s).sentLog = s.sentLog := by
  unfold collectWord; split <;> rfl
@[simp] theorem collectWord_recvLog (n k : Nat) (w : Word32) (s : State) :
    (collectWord n k w s).recvLog = s.recvLog := by
  unfold collectWord; split <;> rfl

/-- A host step appends what it pushes to the Outbound Queue (R21, R90). -/
theorem step_host_outQ {s t : State} (h : step s = .next t) (hc : s.ctx = .host) :
    t.outQ = s.outQ ++ pushedIn s t := by
  obtain ⟨hf, hcase⟩ := step_cases h
  cases hcase with
  | raised _ i hi e ht =>
    subst ht
    rw [pushedIn_raised rfl, List.append_nil]
  | issuedRead _ i hi a n hform _ _ _ _ ht =>
    have hft : t.fault = none := ht ▸ hf
    rw [pushedIn_line hc hi hft, ht]
    obtain rfl | rfl := hform <;> simp [pushedBy]
  | issuedWrite _ i hi a n p hform _ _ _ _ ht =>
    have hft : t.fault = none := ht ▸ hf
    rw [pushedIn_line hc hi hft, ht]
    obtain rfl | rfl | rfl := hform <;> simp [pushedBy]
  | started _ hi ht | released _ hi ht =>
    have hft : t.fault = none := ht ▸ hf
    rw [pushedIn_line hc hi hft, ht, pushedBy]
  | blocked _ b k hi _ _ _ _ ht | collected _ b k hi _ _ _ _ _ _ ht | yielded _ hi ht =>
    have hft : t.fault = none := by simp [ht, hf]
    rw [pushedIn_line hc hi hft, ht]
    simp [pushedBy]
  | idled _ hl ht => rw [pushedIn_end hc hl, ht, switchTo_outQ, List.append_nil]
  | turned htc => exact absurd (hc.symm.trans htc) (by decide)

/-- A host step takes from the front of the Inbound Queue at most, and no word is handshaken in it (R22, R122,
R235). -/
theorem step_host_inbound {s t : State} (h : step s = .next t) (hc : s.ctx = .host) :
    t.inQ <:+ s.inQ ∧ t.sentLog = s.sentLog ∧ t.recvLog = s.recvLog := by
  obtain ⟨-, hcase⟩ := step_cases h
  cases hcase with
  | collected _ b k _ n _ _ w q hq ht =>
    subst ht
    rw [collectWord_inQ, collectWord_sentLog, collectWord_recvLog, hq]
    exact ⟨List.suffix_cons w q, rfl, rfl⟩
  | turned htc => exact absurd (hc.symm.trans htc) (by decide)
  | raised _ _ _ _ ht | issuedRead _ _ _ _ _ _ _ _ _ _ ht | issuedWrite _ _ _ _ _ _ _ _ _ _ _ ht
  | started _ _ ht | released _ _ ht | blocked _ _ _ _ _ _ _ _ ht | yielded _ _ ht | idled _ _ ht =>
    subst ht
    exact ⟨List.suffix_refl _, rfl, rfl⟩

/-- A target step moves the front word of the Outbound Queue to its log, or none, and one arriving word, or none, to
the end of the Inbound Queue and to its log (R166, R185). -/
theorem step_target_moves {s t : State} (h : step s = .next t) (hc : s.ctx = .target) :
    ∃ sent arrived : List Word32, sent.length ≤ 1 ∧ arrived.length ≤ 1 ∧ s.outQ = sent ++ t.outQ ∧
      t.sentLog = s.sentLog ++ sent ∧ t.inQ = s.inQ ++ arrived ∧ t.recvLog = s.recvLog ++ arrived := by
  obtain ⟨-, hcase⟩ := step_cases h
  cases hcase with
  | turned _ r v w _ ht =>
    subst ht
    refine ⟨if r then s.outQ.head?.toList else [], if v then [w] else [], ?_, ?_, ?_, ?_⟩
    · cases r <;> cases s.outQ <;> simp
    · cases v <;> simp
    · cases r <;> cases hq : s.outQ <;> simp [channelStep_eq, hq]
    · simp [channelStep_eq]
  | raised hh | issuedRead hh | issuedWrite hh | started hh | released hh | blocked hh | collected hh
  | yielded hh | idled hh => exact absurd (hh.symm.trans hc) (by decide)

/-- Settles O42: a step of either context by what it moves. -/
theorem eachContextMovesItsOwnWay : Obligations.EachContextMovesItsOwnWay := by
  refine fun s t h => ⟨fun hc => ?_, fun hc => ?_⟩
  · obtain ⟨hin, hsent, hrecv⟩ := step_host_inbound h hc
    exact ⟨⟨_, (step_host_outQ h hc).symm⟩, hin, hsent, hrecv⟩
  · obtain ⟨sent, arrived, hs1, ha1, hout, hsent, hin, hrecv⟩ := step_target_moves h hc
    refine ⟨⟨_, hout.symm⟩, ⟨_, hin.symm⟩, ?_, ?_, ⟨_, hsent.symm⟩, ⟨_, hrecv.symm⟩⟩
    · rw [hout, List.length_append]
      omega
    · rw [hin, List.length_append]
      omega

/-- One step of R38 (v). -/
theorem step_outbound {s t : State} (h : step s = .next t) :
    t.sentLog ++ t.outQ = s.sentLog ++ s.outQ ++ pushedIn s t := by
  cases hc : s.ctx with
  | host =>
    obtain ⟨-, hsent, -⟩ := step_host_inbound h hc
    rw [step_host_outQ h hc, hsent, List.append_assoc]
  | target =>
    obtain ⟨sent, -, -, -, hout, hsent, -, -⟩ := step_target_moves h hc
    rw [pushedIn_target hc, hout, hsent, List.append_nil, List.append_assoc]

/-- What a step pops and what it leaves of a shrinking Inbound Queue are that queue. -/
theorem poppedIn_append {s t : State} (hc : s.ctx = .host) (h : t.inQ <:+ s.inQ) :
    poppedIn s t ++ t.inQ = s.inQ := by
  obtain ⟨popped, hp⟩ := h
  simp [poppedIn, hc, ← hp]

/-- One step of R38 (vi). -/
theorem step_inbound {s t : State} {before : List Word32} (hb : s.recvLog = before ++ s.inQ)
    (h : step s = .next t) : t.recvLog = before ++ poppedIn s t ++ t.inQ := by
  cases hc : s.ctx with
  | host =>
    obtain ⟨hin, -, hrecv⟩ := step_host_inbound h hc
    rw [hrecv, hb, List.append_assoc, poppedIn_append hc hin]
  | target =>
    obtain ⟨-, arrived, -, -, -, -, hin, hrecv⟩ := step_target_moves h hc
    rw [poppedIn_target hc, hin, hrecv, hb, List.append_nil, List.append_assoc]

theorem pushedAlong_succ {s u : State} (h : step s = .next u) (k : Nat) :
    pushedAlong (k + 1) s = pushedIn s u ++ pushedAlong k u := by
  rw [pushedAlong, h]

theorem poppedAlong_succ {s u : State} (h : step s = .next u) (k : Nat) :
    poppedAlong (k + 1) s = poppedIn s u ++ poppedAlong k u := by
  rw [poppedAlong, h]

/-- Settles O40, by induction on the steps of the run. -/
theorem outboundQueueIsFifo : Obligations.OutboundQueueIsFifo := by
  intro k
  induction k with
  | zero =>
    intro s t h
    cases h
    rw [pushedAlong, List.append_nil]
  | succ k ih =>
    intro s t h
    obtain ⟨u, hu, h⟩ := run_succ_cases h
    rw [ih u t h, step_outbound hu, pushedAlong_succ hu, List.append_assoc]

/-- Settles O41, by induction on the steps of the run: what the first step pops joins `before`. -/
theorem inboundQueueIsFifo : Obligations.InboundQueueIsFifo := by
  intro k
  induction k with
  | zero =>
    intro before s t hb h
    cases h
    rw [poppedAlong, List.append_nil, hb]
  | succ k ih =>
    intro before s t hb h
    obtain ⟨u, hu, h⟩ := run_succ_cases h
    rw [ih _ u t (step_inbound hb hu) h, poppedAlong_succ hu, List.append_assoc before]

/-! ## The reference target's record (R241, R245) -/

/-- One more chunk above `k` read ones leaves a value of `k + 1` chunks (R11, R242). -/
theorem add_chunk_lt {k acc : Nat} (w : Word32) (h : acc < 2 ^ (32 * k)) :
    acc + w.toNat * 2 ^ (32 * k) < 2 ^ (32 * (k + 1)) := by
  have hw : w.toNat + 1 ≤ wordBase := w.isLt
  calc acc + w.toNat * 2 ^ (32 * k)
      < 2 ^ (32 * k) + w.toNat * 2 ^ (32 * k) := Nat.add_lt_add_right h _
    _ = (w.toNat + 1) * 2 ^ (32 * k) := by ring
    _ ≤ wordBase * 2 ^ (32 * k) := Nat.mul_le_mul_right _ hw
    _ = 2 ^ (32 * (k + 1)) := wordBase_mul_two_pow k

/-- The parser goes from a phase that a stream can reach to another (R242). -/
theorem parseWord_phase_ok {c : Params} {ph ph' : Phase} {w : Word32} {done : Option Command}
    (hc : c.wf = true) (hp : ph.Ok c) (h : parseWord c ph w = .ok (ph', done)) : ph'.Ok c := by
  obtain ⟨-, hA, hL, -, -, -⟩ := Params.wf_iff.1 hc
  cases ph with
  | hdr =>
    simp only [parseWord] at h
    split at h
    · cases h
      exact ⟨hA, by simp⟩
    · split at h
      · cases h
        exact ⟨hA, by simp⟩
      · cases h
  | addr kd k acc =>
    obtain ⟨hk, hacc⟩ := hp
    have hlt := add_chunk_lt w hacc
    simp only [parseWord] at h
    split at h
    · rename_i hmore
      cases h
      exact ⟨hmore, hlt⟩
    · have hlast : k + 1 = c.addrChunks := by omega
      rw [hlast] at hlt
      cases h
      exact ⟨hlt, hL, by simp⟩
  | len kd a k acc =>
    obtain ⟨ha, hk, hacc⟩ := hp
    have hlt := add_chunk_lt w hacc
    simp only [parseWord] at h
    split at h
    · rename_i hmore
      cases h
      exact ⟨ha, hmore, hlt⟩
    · have hlast : k + 1 = c.lenChunks := by omega
      rw [hlast] at hlt
      cases kd with
      | read =>
        cases h
        trivial
      | write =>
        cases h
        exact ⟨ha, hlt, Nat.succ_pos _, rfl⟩
  | pay a n k ws =>
    obtain ⟨ha, hn, hk, hws⟩ := hp
    simp only [parseWord] at h
    split at h
    · rename_i hmore
      cases h
      exact ⟨ha, hn, hmore, by simp [hws]⟩
    · cases h
      trivial

theorem refExecute_ok {c : Params} {t : RefTarget} (cmd : Command) (h : t.Ok c) : (refExecute c cmd t).Ok c := by
  obtain ⟨hmem, hkeys, hphase⟩ := h
  cases cmd with
  | read a n => exact ⟨hmem, hkeys, hphase⟩
  | write a n p => exact ⟨storeWords_wf c a 0 p hmem, storeWords_keys c a 0 p hkeys, hphase⟩

theorem refReceive_ok {c : Params} {t : RefTarget} (hc : c.wf = true) (w : Word32) (h : t.Ok c) :
    (refReceive c w t).Ok c := by
  obtain ⟨hmem, hkeys, hphase⟩ := h
  unfold refReceive
  split
  · exact ⟨hmem, hkeys, hphase⟩
  · rename_i ph hph
    exact ⟨hmem, hkeys, parseWord_phase_ok hc hphase hph⟩
  · rename_i ph cmd hph
    exact refExecute_ok cmd ⟨hmem, hkeys, parseWord_phase_ok hc hphase hph⟩

/-- A turn keeps the record of the reference target, whatever the channel step moved (R247). -/
theorem refAfterTurn_ok {c : Params} {t : RefTarget} (hc : c.wf = true) (inbound : Bool) (sent : Option Word32)
    (h : t.Ok c) : (refAfterTurn c inbound sent t).Ok c := by
  have h1 : (if inbound then { t with tx := t.tx.tail } else t).Ok c := by
    split
    · exact h
    · exact h
  cases sent with
  | none => exact h1
  | some w => exact refReceive_ok hc w h1

theorem endTurn_target_ok {s : State} (hc : s.cfg.wf = true) (v : Bool) (sent : Option Word32)
    (h : s.target.Ok s.cfg) : (endTurn v sent s).target.Ok s.cfg := by
  rw [endTurn_target]
  split
  · exact h
  · exact refAfterTurn_ok hc v sent h

/-! ## The invariant and the books of the reads (R38) -/

/-- A word collected by the read it belongs to keeps the invariant, whether or not it is the last (R122, R123). -/
theorem collectWord_inv {n k : Nat} {w : Word32} {s : State} (h : s.Inv) (ho : s.outstanding = some n)
    (hl : s.hpc < (programLines s).length) : (collectWord n k w s).Inv := by
  obtain ⟨hw, hp, hle, hsorted, ht⟩ := h
  by_cases hlast : s.rdBuf.length + 1 = n
  · rw [collectWord_last hlast]
    exact ⟨hw, rfl, hl, Table.sorted_set k _ hsorted, ht⟩
  · rw [collectWord_more hlast]
    refine ⟨hw, ?_, hle, hsorted, ht⟩
    simp only [State.PendingReadOk, ho, List.length_append, List.length_singleton] at hp ⊢
    omega

/-- Every step keeps the invariant. -/
theorem step_inv {s t : State} (h : step s = .next t) (hinv : s.Inv) : t.Inv := by
  obtain ⟨hw, hp, hle, hsorted, htarget⟩ := hinv
  obtain ⟨-, hcase⟩ := step_cases h
  cases hcase with
  | raised _ _ _ _ ht =>
    subst ht
    exact ⟨hw, hp, hle, hsorted, htarget⟩
  | issuedRead _ _ hi _ n _ _ hn _ ho ht =>
    subst ht
    have hempty : s.rdBuf = [] := by simpa only [State.PendingReadOk, ho] using hp
    exact ⟨hw, ⟨hn, by rw [hempty]; exact hn⟩, line_lt hi, hsorted, htarget⟩
  | issuedWrite _ _ hi _ _ _ _ _ _ _ _ ht | started _ hi ht | released _ hi ht | yielded _ hi ht =>
    subst ht
    exact ⟨hw, hp, line_lt hi, hsorted, htarget⟩
  | blocked _ _ _ _ _ _ _ _ ht | idled _ _ ht =>
    subst ht
    exact ⟨hw, hp, hle, hsorted, htarget⟩
  | collected _ _ _ hi _ _ ho _ _ _ ht =>
    subst ht
    exact collectWord_inv ⟨hw, hp, hle, hsorted, htarget⟩ ho (line_lt hi)
  | turned _ r v w _ ht =>
    subst ht
    rw [channelStep_eq]
    exact ⟨hw, hp, hle, hsorted, endTurn_target_ok hw v _ htarget⟩

/-- A poke is a well-formed WRITE of one word (R71, R140, R143). -/
theorem poke_wf {c : Params} {a : Nat} (v : Word32) (ha : a < c.addrBound) :
    commandWf c (.write a 1 [v]) = true :=
  commandWf_write.2 ⟨ha, le_refl 1, lenBound_pos c, rfl⟩

/-- A step that pushes commands and asks for as many words by the outstanding read as their READs do keeps the books. -/
theorem State.ReadsBalance.push {s t : State} (h : s.ReadsBalance) (more : List Command) (hc : t.cfg = s.cfg)
    (hw : ∀ x ∈ more, commandWf s.cfg x = true) (hsent : t.sentLog = s.sentLog)
    (hout : t.outQ = s.outQ ++ more.flatMap (encCommand s.cfg)) (hb : t.rdBuf = s.rdBuf) (hin : t.inQ = s.inQ)
    (hrecv : t.recvLog = s.recvLog)
    (ho : t.outstanding.getD 0 = s.outstanding.getD 0 + demanded more) : t.ReadsBalance := by
  obtain ⟨cmds, hissued, hbal⟩ := h
  refine ⟨cmds ++ more, hissued.push hc hw (by rw [hsent, hout, List.append_assoc]), ?_⟩
  rw [demanded_append, hb, hin, hrecv, ho]
  omega

/-- A step that issues no command keeps the books if it keeps the balance itself. -/
theorem State.ReadsBalance.same {s t : State} (h : s.ReadsBalance) (hc : t.cfg = s.cfg)
    (hwire : t.sentLog ++ t.outQ = s.sentLog ++ s.outQ)
    (hmove : t.rdBuf.length + t.inQ.length + s.recvLog.length + s.outstanding.getD 0 =
      s.rdBuf.length + s.inQ.length + t.recvLog.length + t.outstanding.getD 0) : t.ReadsBalance := by
  obtain ⟨cmds, hissued, hbal⟩ := h
  exact ⟨cmds, hissued.same hc hwire, by omega⟩

/-- The word at the front of the Inbound Queue, collected, keeps the books (R122, R123). -/
theorem collectWord_readsBalance {n k : Nat} {w : Word32} {q : List Word32} {s : State} (h : s.ReadsBalance)
    (ho : s.outstanding = some n) (hq : s.inQ = w :: q) :
    (collectWord n k w { s with inQ := q }).ReadsBalance := by
  refine h.same (collectWord_sameRun n k w { s with inQ := q }).1 (by simp) ?_
  by_cases hlast : s.rdBuf.length + 1 = n
  · rw [collectWord_last (s := { s with inQ := q }) hlast]
    simp only [ho, hq, List.length_nil, List.length_cons, Option.getD_some, Option.getD_none]
    omega
  · rw [collectWord_more (s := { s with inQ := q }) hlast]
    simp only [hq, List.length_append, List.length_cons, List.length_nil]
    omega

/-- A target turn moves words along the wire and counts an arriving word in queue and log alike. -/
theorem turn_readsBalance {s : State} (h : s.ReadsBalance) (r v : Bool) (w : Word32) (sent : Option Word32) :
    (endTurn v sent (channelStep r v w s)).ReadsBalance := by
  rw [channelStep_eq]
  refine h.same rfl ?_ ?_
  · cases r <;> cases s.outQ <;> simp
  · simp only [endTurn_rdBuf, endTurn_inQ, endTurn_recvLog, endTurn_outstanding, List.length_append]
    omega

/-- Every step keeps the books of the reads, under the conditions of R7. -/
theorem step_readsBalance {s t : State} (h : step s = .next t) (hw : s.cfg.wf = true) (hb : s.ReadsBalance) :
    t.ReadsBalance := by
  obtain ⟨-, -, -, hstart, hfirst, hsecond⟩ := Params.wf_iff.1 hw
  obtain ⟨-, hcase⟩ := step_cases h
  cases hcase with
  | raised _ _ _ _ ht | blocked _ _ _ _ _ _ _ _ ht | yielded _ _ ht | idled _ _ ht =>
    subst ht
    exact hb.same rfl rfl rfl
  | issuedRead _ _ _ a n _ ha hn hl ho ht =>
    subst ht
    refine hb.push [.read a n] rfl ?_ rfl (by simp [encCommand]) rfl rfl rfl (by simp [ho])
    exact List.forall_mem_singleton.2 (commandWf_read.2 ⟨ha, hn, by omega⟩)
  | issuedWrite _ _ _ a n p _ ha hn hl hp ht =>
    subst ht
    refine hb.push [.write a n p] rfl ?_ rfl (by simp [encCommand]) rfl rfl rfl rfl
    exact List.forall_mem_singleton.2 (commandWf_write.2 ⟨ha, hn, by omega, hp⟩)
  | started _ _ ht =>
    subst ht
    refine hb.push [.write s.cfg.startAddr 1 [1]] rfl ?_ rfl (by simp [encCommand]) rfl rfl rfl rfl
    exact List.forall_mem_singleton.2 (poke_wf 1 hstart)
  | released _ _ ht =>
    subst ht
    refine hb.push [.write s.cfg.resetFirst 1 [0], .write s.cfg.resetSecond 1 [0]] rfl ?_ rfl
      (by simp [encCommand]) rfl rfl rfl rfl
    exact List.forall_mem_cons.2 ⟨poke_wf 0 hfirst, List.forall_mem_singleton.2 (poke_wf 0 hsecond)⟩
  | collected _ _ _ _ _ _ ho _ _ hq ht =>
    subst ht
    exact collectWord_readsBalance hb ho hq
  | turned _ r v w _ ht =>
    subst ht
    exact turn_readsBalance hb r v w _

/-- Settles O38: the invariant and the books, each by the cases of a step. -/
theorem invariantIsKept : Obligations.InvariantIsKept :=
  fun _ _ h => ⟨step_inv h, step_readsBalance h⟩

end Sys2Proof.Machine

/-! ## Host bytes and payload words (R54, D16) -/

namespace Sys2Proof

/-- The four bytes of a word, put together again. -/
theorem bytes_append_eq (w : Word32) :
    w.extractLsb' 24 8 ++ w.extractLsb' 16 8 ++ w.extractLsb' 8 8 ++ w.extractLsb' 0 8 = w := by
  have h3 : w.extractLsb' 24 8 ++ w.extractLsb' 16 8 = w.extractLsb' 16 16 :=
    BitVec.extractLsb'_append_extractLsb'_eq_extractLsb' rfl
  have h2 : w.extractLsb' 16 16 ++ w.extractLsb' 8 8 = w.extractLsb' 8 24 :=
    BitVec.extractLsb'_append_extractLsb'_eq_extractLsb' rfl
  have h1 : w.extractLsb' 8 24 ++ w.extractLsb' 0 8 = w.extractLsb' 0 32 :=
    BitVec.extractLsb'_append_extractLsb'_eq_extractLsb' rfl
  rw [h3, h2, h1, BitVec.extractLsb'_eq_self]

/-- The bytes of a word that four bytes make are these four, the lowest first. -/
theorem unpackBytes_append_cons (b0 b1 b2 b3 : Byte) (ws : List Word32) :
    unpackBytes ((b3 ++ b2 ++ b1 ++ b0) :: ws) = b0 :: b1 :: b2 :: b3 :: unpackBytes ws := by
  have h0 : (b3 ++ b2 ++ b1 ++ b0).extractLsb' 0 8 = b0 := BitVec.extractLsb'_append_eq_right
  have h1 : (b3 ++ b2 ++ b1 ++ b0).extractLsb' 8 8 = b1 := by
    rw [BitVec.extractLsb'_append_eq_of_le (by decide), BitVec.extractLsb'_append_eq_right]
  have h2 : (b3 ++ b2 ++ b1 ++ b0).extractLsb' 16 8 = b2 := by
    rw [BitVec.extractLsb'_append_eq_of_le (by decide), BitVec.extractLsb'_append_eq_of_le (by decide),
      BitVec.extractLsb'_append_eq_right]
  have h3 : (b3 ++ b2 ++ b1 ++ b0).extractLsb' 24 8 = b3 := by
    rw [BitVec.extractLsb'_append_eq_of_le (by decide), BitVec.extractLsb'_append_eq_of_le (by decide),
      BitVec.extractLsb'_append_eq_left]
  rw [unpackBytes, h0, h1, h2, h3]

/-- Four bytes more are one word more. -/
theorem packBytes_cons (b0 b1 b2 b3 : Byte) (bs : List Byte) :
    packBytes (b0 :: b1 :: b2 :: b3 :: bs) = (packBytes bs).map ((b3 ++ b2 ++ b1 ++ b0) :: ·) := by
  rw [packBytes]
  cases packBytes bs <;> rfl

theorem length_unpackBytes (ws : List Word32) : (unpackBytes ws).length = 4 * ws.length := by
  induction ws with
  | nil => rfl
  | cons w ws ih =>
    simp only [unpackBytes, List.length_cons, ih]
    omega

theorem packBytes_unpackBytes (ws : List Word32) : packBytes (unpackBytes ws) = some ws := by
  induction ws with
  | nil => rfl
  | cons w ws ih => rw [unpackBytes, packBytes_cons, ih, Option.map_some, bytes_append_eq]

theorem unpackBytes_of_packBytes : ∀ {bs : List Byte} {ws : List Word32},
    packBytes bs = some ws → unpackBytes ws = bs
  | [], _, h => by
    cases h
    rfl
  | [_], _, h | [_, _], _, h | [_, _, _], _, h => nomatch h
  | b0 :: b1 :: b2 :: b3 :: bs, _, h => by
    rw [packBytes_cons, Option.map_eq_some_iff] at h
    obtain ⟨ws, hws, rfl⟩ := h
    rw [unpackBytes_append_cons, unpackBytes_of_packBytes hws]

/-- A whole number of words packs, and nothing else does. -/
theorem isSome_packBytes_iff : ∀ bs : List Byte, (packBytes bs).isSome ↔ bs.length % 4 = 0
  | [] | [_] | [_, _] | [_, _, _] => by simp [packBytes]
  | b0 :: b1 :: b2 :: b3 :: bs => by
    rw [packBytes_cons, Option.isSome_map, isSome_packBytes_iff bs]
    simp only [List.length_cons]
    omega

/-- Byte `4k+j` is bits `8j+7` to `8j` of word `k`. -/
theorem unpackBytes_getElem? (ws : List Word32) (k : Nat) {j : Nat} (hj : j < 4) :
    (unpackBytes ws)[4 * k + j]? = ws[k]?.map fun w => w.extractLsb' (8 * j) 8 := by
  induction ws generalizing k with
  | nil => rfl
  | cons w ws ih =>
    cases k with
    | zero =>
      obtain rfl | rfl | rfl | rfl : j = 0 ∨ j = 1 ∨ j = 2 ∨ j = 3 := by omega
      all_goals rfl
    | succ k =>
      have hindex : 4 * (k + 1) + j = 4 * k + j + 4 := by omega
      rw [hindex, List.getElem?_cons_succ, ← ih k]
      rfl

end Sys2Proof

namespace Sys2Proof.Machine

/-- Settles O51: the two inverses, which lists of bytes pack, and the place of each byte, each by induction over whole
words (R54). -/
theorem bytePackingInverts : Obligations.BytePackingInverts := by
  refine ⟨packBytes_unpackBytes, fun _ _ => unpackBytes_of_packBytes, fun bs hlen => ?_,
    fun ws k _ => unpackBytes_getElem? ws k⟩
  obtain ⟨ws, hws⟩ := Option.isSome_iff_exists.1 ((isSome_packBytes_iff bs).2 hlen)
  refine ⟨ws, hws, ?_⟩
  rw [← unpackBytes_of_packBytes hws, length_unpackBytes]

end Sys2Proof.Machine

/-! ## The decoder inverts the encoder (R79 to R82) -/

namespace Sys2Proof

/-- The address and the word count are read back from their chunks, whatever follows them (R75 to R77). -/
theorem decodeHead_chunks {c : Params} {a n : Nat} (ha : a < c.addrBound) (h1 : 1 ≤ n) (h2 : n ≤ c.lenBound)
    (rest : List Word32) :
    decodeHead c (chunks c.addrChunks a ++ (chunks c.lenChunks (n - 1) ++ rest)) = .ok (a, n, rest) := by
  have haddr : unchunk (chunks c.addrChunks a) = a := unchunk_chunks ha
  have hfield : n - 1 < c.lenBound := by omega
  have hlen : unchunk (chunks c.lenChunks (n - 1)) = n - 1 := unchunk_chunks hfield
  simp only [decodeHead, splitWords_append_of_length (chunks_length _ _), haddr, hlen, Nat.sub_add_cancel h1]

theorem decode_opRead {c : Params} {ws rest : List Word32} {a n : Nat} (h : decodeHead c ws = .ok (a, n, rest)) :
    decode c (c.opRead :: ws) = .ok (.wireRead a n, rest) := by
  simp [decode, h]

theorem decode_opWrite {c : Params} {ws p rest : List Word32} {a n : Nat} (hop : c.opRead ≠ c.opWrite)
    (h : decodeHead c ws = .ok (a, n, p ++ rest)) (hp : p.length = n) :
    decode c (c.opWrite :: ws) = .ok (.wireWrite a n p, rest) := by
  simp [decode, Ne.symm hop, h, splitWords_append_of_length hp]

/-- A header that is neither opcode is a row of its own, one word long (R82). -/
theorem decode_reserved {c : Params} {w : Word32} (hr : w ≠ c.opRead) (hw : w ≠ c.opWrite) (rest : List Word32) :
    decode c (w :: rest) = .ok (.reservedHeader w, rest) := by
  simp [decode, hr, hw]

theorem decodeResponse_append (ws rest : List Word32) :
    decodeResponse ws.length (ws ++ rest) = .ok (.readResponse ws, rest) := by
  rw [decodeResponse, splitWords_append]

theorem reservedHeader_wf_iff {c : Params} {w : Word32} :
    (Instr.reservedHeader w).wf c = true ↔ w ≠ c.opRead ∧ w ≠ c.opWrite := by
  simp [Instr.wf]

end Sys2Proof

namespace Sys2Proof.Machine

/-- A well-formed command is read back from its words as its own wire row, whatever follows it (R79, R80). -/
theorem decode_encCommand {c : Params} {x : Command} (hc : c.wf = true) (hx : commandWf c x = true)
    (rest : List Word32) : decode c (encCommand c x ++ rest) = .ok (instrOfCommand x, rest) := by
  cases x with
  | read a n =>
    obtain ⟨ha, h1, h2⟩ := commandWf_read.1 hx
    rw [encCommand, encRead, List.cons_append, List.append_assoc]
    exact decode_opRead (decodeHead_chunks ha h1 h2 rest)
  | write a n p =>
    obtain ⟨ha, h1, h2, hp⟩ := commandWf_write.1 hx
    obtain ⟨hop, -⟩ := Params.wf_iff.1 hc
    rw [encCommand, encWrite, List.cons_append, List.append_assoc, List.append_assoc]
    exact decode_opWrite hop (decodeHead_chunks ha h1 h2 (p ++ rest)) hp

theorem instrOfCommand_injective : Function.Injective instrOfCommand := by
  intro x y h
  cases x <;> cases y <;> cases h <;> rfl

/-- Settles O47: the two commands by `decode_encCommand`, a reserved header by its one word, a response by its count;
no other row has words of its own. -/
theorem decodeInvertsEncode : Obligations.DecodeInvertsEncode := by
  intro c i rest hc hi
  cases i with
  | wireRead a n => exact ⟨fun _ => decode_encCommand (x := .read a n) hc hi rest, nofun⟩
  | wireWrite a n p => exact ⟨fun _ => decode_encCommand (x := .write a n p) hc hi rest, nofun⟩
  | reservedHeader w =>
    obtain ⟨hr, hw⟩ := reservedHeader_wf_iff.1 hi
    exact ⟨fun _ => decode_reserved hr hw rest, nofun⟩
  | readResponse ws =>
    refine ⟨nofun, fun vs h => ?_⟩
    cases h
    exact decodeResponse_append ws rest
  | _ => exact ⟨nofun, nofun⟩

/-- Settles O48: the words of `y`, which begin with those of `x`, are decoded as either command. -/
theorem encodingIsInjective : Obligations.EncodingIsInjective := by
  rintro c x y hc hx hy ⟨rest, hxy⟩
  have hdecode : decode c (encCommand c x ++ rest) = decode c (encCommand c y ++ []) := by
    rw [hxy, List.append_nil]
  rw [decode_encCommand hc hx, decode_encCommand hc hy] at hdecode
  obtain ⟨hrow, -⟩ := Prod.mk.inj (Except.ok.inj hdecode)
  exact instrOfCommand_injective hrow

/-! ## A row's bits loaded as the program (log 1, log 9) -/

/-- The decoder reads only rows that begin with a header (R80). -/
theorem hasHeader_of_decode {c : Params} {ws rest : List Word32} {i : Instr} (h : decode c ws = .ok (i, rest)) :
    i.hasHeader = true := by
  cases ws with
  | nil => cases h
  | cons w ws =>
    simp only [decode] at h
    split at h
    · split at h
      · cases h
      · cases h
        rfl
    · split at h
      · split at h
        · cases h
        · split at h
          · cases h
          · cases h
            rfl
      · cases h
        rfl

theorem hasHeader_of_decodeTableWordAt {c : Params} {nbits w : Nat} {i : Instr}
    (h : decodeTableWordAt c nbits w = some i) : i.hasHeader = true := by
  rw [decodeTableWordAt] at h
  split at h
  · rename_i hd
    cases h
    exact hasHeader_of_decode hd
  · cases h

theorem expandLine_of_hasHeader {i : Instr} (h : i.hasHeader = true) : expandLine i = [i] := by
  cases i with
  | read a b k => cases h
  | _ => rfl

theorem withFetchWord_of_decode {s : State} {nbits w : Nat} {i : Instr}
    (h : decodeTableWordAt s.cfg nbits w = some i) : s.withFetchWord nbits w = loadOne i s := by
  rw [State.withFetchWord, loadTableWord, h]

theorem step_line {s : State} {i : Instr} (hc : s.ctx = .host) (hi : (programLines s)[s.hpc]? = some i) :
    step s = exec i s := by
  rw [step, fetch_line hc hi]

/-- A one-line program of a form that is itself a line runs that line next (R182). -/
theorem step_loadOne {i : Instr} (hi : expandLine i = [i]) (s : State) :
    step (loadOne i s) = exec i (loadOne i s) := by
  refine step_line rfl ?_
  simp [programLines, hi]

/-- Settles O28: what the decoder reads is its own one line, so the next step fetches it. -/
theorem loadedWordRunsNext : Obligations.LoadedWordRunsNext := by
  intro nbits w i s h
  rw [withFetchWord_of_decode h]
  exact ⟨step_loadOne (expandLine_of_hasHeader (hasHeader_of_decodeTableWordAt h)) s, rfl, rfl, rfl⟩

/-! ## Written forms (R72, R73, R82, R84 to R88) -/

/-- The written words are the words of their commands, which decode back; a reserved header is not looked past. -/
theorem decode_written :
    decode Params.default [0, 0x1000, 0, 1, 0] = .ok (.wireRead 0x1000 2, []) ∧
    decode Params.default [1, 0x9ABCDEF0, 0x12345678, 2, 0, 0xA, 0xB, 0xC] =
      .ok (.wireWrite 0x123456789ABCDEF0 3 [0xA, 0xB, 0xC], []) ∧
    decode Params.default [7, 0] = .ok (.reservedHeader 7, [0]) :=
  ⟨decode_encCommand (x := .read 0x1000 2) Params.default_wf (by decide) [],
    decode_encCommand (x := .write 0x123456789ABCDEF0 3 [0xA, 0xB, 0xC]) Params.default_wf (by decide) [],
    decode_reserved (by decide) (by decide) [0]⟩

/-- Settles O50: the words by `decode_written`, each line of text by running the parser on it. -/
theorem writtenFormsAreRead : Obligations.WrittenFormsAreRead := by
  obtain ⟨hread, hwrite, hreserved⟩ := decode_written
  exact ⟨hread, hwrite, hreserved, by decide⟩

/-! ## Words arriving at the block (R81, R162) -/

theorem exec_readResponse (ws : List Word32) {s : State} (h : s.TargetReady) :
    exec (.readResponse ws) s = .next { s with inQ := s.inQ ++ ws, recvLog := s.recvLog ++ ws } := by
  obtain ⟨hc, hf⟩ := h
  rw [← acceptWords_eq]
  exact whenTarget_ready hc hf _

theorem exec_acceptInboundWord (w : Word32) {s : State} (h : s.TargetReady) :
    exec (.acceptInboundWord w) s = .next { s with inQ := s.inQ ++ [w], recvLog := s.recvLog ++ [w] } :=
  whenTarget_ready h.1 h.2 _

/-- Settles O23: a response is one append to queue and log, and appending one word more is one more arrival. -/
theorem responseArrivesUnframed : Obligations.ResponseArrivesUnframed := by
  refine fun ws s h => ⟨exec_readResponse ws h, fun w => ⟨_, exec_readResponse ws h, ?_⟩⟩
  have hready : ({ s with inQ := s.inQ ++ ws, recvLog := s.recvLog ++ ws } : State).TargetReady := h
  rw [exec_readResponse (ws ++ [w]) h, exec_acceptInboundWord w hready]
  simp only [List.append_assoc]

/-! ## A reserved header (R82, R208, R250, I3) -/

theorem exec_reservedHeader (w : Word32) (s : State) :
    exec (.reservedHeader w) s =
      byContext s (.refused .reservedHeader)
        (atReference s .reservedHeader fun t => refReceive s.cfg w { t with phase := .hdr }) := rfl

theorem atReference_reference {s : State} (h : s.collaborator = .reference) (why : Refusal)
    (act : RefTarget → RefTarget) : atReference s why act = .next { s with target := act s.target } := by
  simp [atReference, h]

/-- The parser, expecting a header, turns away a word that is neither opcode (R242). -/
theorem parseWord_hdr_reserved {c : Params} {w : Word32} (hr : w ≠ c.opRead) (hw : w ≠ c.opWrite) :
    parseWord c .hdr w = .error .illegalCommand := by
  simp [parseWord, hr, hw]

theorem refReceive_error {c : Params} {w : Word32} {t : RefTarget} {e : FaultCode}
    (h : parseWord c t.phase w = .error e) : refReceive c w t = { t with tfault := some e } := by
  simp [refReceive, h]

/-- Settles O55: the row by its context and its collaborator; only the reference parser reads the header. -/
theorem reservedHeaderStopsTheTarget : Obligations.ReservedHeaderStopsTheTarget := by
  intro w s hr hw
  refine ⟨fun ⟨hc, hf⟩ hx => ?_, fun ⟨hc, hf⟩ hx => ?_, fun ⟨hc, hf⟩ => ?_⟩
  · rw [exec_reservedHeader, byContext_target hc hf, atReference_reference hx,
      refReceive_error (parseWord_hdr_reserved hr hw)]
  · rw [exec_reservedHeader, byContext_target hc hf, atReference_external hx]
  · rw [exec_reservedHeader, byContext_host hc hf]

/-! ## The pseudo-operation `read` and its two lines (R87, R128) -/

theorem exec_read (a b k : Nat) (s : State) : exec (.read a b k) s = execRead a b k s := rfl

theorem exec_readReq {s : State} (h : s.HostReady) (a b : Nat) : exec (.readReq a b) s = encodeRead a b s :=
  whenHost_ready h.1 h.2 _

theorem exec_readResp {s : State} (h : s.HostReady) (b k : Nat) : exec (.readResp b k) s = readResult b k s :=
  whenHost_ready h.1 h.2 _

/-- Once its first line has completed, `read` is the drain of its second (R128). -/
theorem execRead_drains {a b k : Nat} {s t : State} (h : s.HostReady) (ht : encodeRead a b s = .next t)
    (hf : t.fault = none) : execRead a b k s = drainRead b k (t.inQ.length + 1) t := by
  rw [execRead, whenHost_ready h.1 h.2, ht]
  exact if_pos hf

/-- A `read` whose first line faults or stops gives that line's answer (R128, R210). -/
theorem execRead_faulted {a b k : Nat} {s t : State} (h : s.HostReady) (ht : encodeRead a b s = .next t)
    (hf : t.fault ≠ none) : execRead a b k s = .next t := by
  rw [execRead, whenHost_ready h.1 h.2, ht]
  exact if_neg hf

theorem execRead_refused {a b k : Nat} {s : State} {r : Refusal} (h : s.HostReady)
    (ht : encodeRead a b s = .refused r) : execRead a b k s = .refused r := by
  rw [execRead, whenHost_ready h.1 h.2, ht]

/-- A drain goes on while the host stands on its line (R122). -/
theorem drainRead_continue {b k : Nat} {s t : State} (ht : readResult b k s = .next t)
    (hgo : t.HostReady ∧ t.hpc = s.hpc) (fuel : Nat) : drainRead b k (fuel + 1) s = drainRead b k fuel t := by
  rw [drainRead, ht]
  exact if_pos ⟨hgo.1.1, hgo.1.2, hgo.2⟩

/-- A drain ends when its line completes, yields or faults (R122). -/
theorem drainRead_stop {b k : Nat} {s t : State} (ht : readResult b k s = .next t)
    (hgo : ¬ (t.HostReady ∧ t.hpc = s.hpc)) (fuel : Nat) : drainRead b k (fuel + 1) s = .next t := by
  rw [drainRead, ht]
  exact if_neg fun h => hgo ⟨⟨h.1, h.2.1⟩, h.2.2⟩

/-- The state stands on the line `i` of its program. -/
def State.OnLine (s : State) (i : Instr) : Prop := (programLines s)[s.hpc]? = some i

theorem State.SameRun.onLine {s t : State} {i : Instr} (h : s.SameRun t) (hpc : t.hpc = s.hpc)
    (hi : s.OnLine i) : t.OnLine i := by
  rwa [State.OnLine, programLines, h.2, hpc]

/-- A drain is a run of host steps on its `read_resp` line. -/
theorem exists_run_eq_drainRead {b k : Nat} (fuel : Nat) {s : State} (hs : s.HostReady)
    (hl : s.OnLine (.readResp b k)) : ∃ m, core.run m s = drainRead b k fuel s := by
  induction fuel generalizing s with
  | zero => exact ⟨0, rfl⟩
  | succ fuel ih =>
    have hstep : step s = readResult b k s := (step_line hs.1 hl).trans (exec_readResp hs b k)
    cases hr : readResult b k s with
    | next t =>
      rw [hr] at hstep
      by_cases hgo : t.HostReady ∧ t.hpc = s.hpc
      · obtain ⟨m, hm⟩ := ih hgo.1 ((readResult_sameRun hr).onLine hgo.2 hl)
        exact ⟨m + 1, by rw [run_succ_next hstep, hm, drainRead_continue hr hgo]⟩
      · exact ⟨1, by rw [run_one, hstep, drainRead_stop hr hgo]⟩
    | fault r => exact ⟨1, by rw [run_one, hstep, drainRead, hr]⟩
    | refused r => exact ⟨1, by rw [run_one, hstep, drainRead, hr]⟩

/-- The state after `encode_read` has issued a READ of `n` words (R101). -/
def State.issueRead (a n : Nat) (s : State) : State :=
  { s with outQ := s.outQ ++ encRead s.cfg a n, outstanding := some n, hpc := s.hpc + 1 }

/-- A READ that its checks and the queue allow is issued (R101). -/
theorem encodeRead_issues {a n : Nat} {s : State} (ha : a < s.cfg.addrBound) (h1 : 1 ≤ n)
    (h2 : n - 1 < s.cfg.lenBound) (ho : s.outstanding = none) (hr : roomFor s s.cfg.headWords = true) :
    encodeRead a (4 * n) s = .next (s.issueRead a n) := by
  rw [encodeRead, checkTransfer_words ha h1 h2]
  exact (if_neg (not_not.2 ho)).trans (pushOut_room (by rwa [encRead_length]) _)

/-- Settles O15: the first step is the `read_req` line, and unless it ends the `read`, the drain is the steps of the
`read_resp` line. -/
theorem readIsItsTwoLines : Obligations.ReadIsItsTwoLines := by
  intro a b k s hs hreq hresp
  have hstep : step s = encodeRead a b s := (step_line hs.1 hreq).trans (exec_readReq hs a b)
  rw [exec_read]
  cases hr : encodeRead a b s with
  | fault r => exact ⟨1, by rw [run_one, hstep, hr, execRead_fault hs.1 hs.2 hr]⟩
  | refused r => exact ⟨1, by rw [run_one, hstep, hr, execRead_refused hs hr]⟩
  | next t =>
    rw [hr] at hstep
    by_cases hf : t.fault = none
    · obtain ⟨hc, hline⟩ : t.ctx = .host ∧ t.OnLine (.readResp b k) := by
        obtain ⟨e, rfl⟩ | ⟨n, -, -, rfl⟩ := encodeRead_next hr
        · cases hf
        · exact ⟨hs.1, hresp⟩
      obtain ⟨m, hm⟩ := exists_run_eq_drainRead (t.inQ.length + 1) ⟨hc, hf⟩ hline
      exact ⟨m + 1, by rw [run_succ_next hstep, hm, execRead_drains hs hr hf]⟩
    · exact ⟨1, by rw [run_one, hstep, execRead_faulted hs hr hf]⟩

/-! ## How far a drain goes (R122 to R124) -/

/-- `read_resp` of the outstanding read blocks on an empty queue (R122). -/
theorem readResult_empty {n k : Nat} {s : State} (h1 : 1 ≤ n) (h2 : n - 1 < s.cfg.lenBound)
    (ho : s.outstanding = some n) (hq : s.inQ = []) : readResult (4 * n) k s = .next (switchTo .target s) := by
  simp [readResult, checkLen_words h1 h2, ho, hq]

/-- `read_resp` of the outstanding read takes the word at the front (R122). -/
theorem readResult_cons {n k : Nat} {s : State} {w : Word32} {q : List Word32} (h1 : 1 ≤ n)
    (h2 : n - 1 < s.cfg.lenBound) (ho : s.outstanding = some n) (hq : s.inQ = w :: q) :
    readResult (4 * n) k s = .next (collectWord n k w { s with inQ := q }) := by
  simp [readResult, checkLen_words h1 h2, ho, hq]

/-- A word that is not the read's last leaves the drain on its line (R122). -/
theorem drainRead_more {n k : Nat} {s : State} {w : Word32} {q : List Word32} (hs : s.HostReady) (h1 : 1 ≤ n)
    (h2 : n - 1 < s.cfg.lenBound) (ho : s.outstanding = some n) (hq : s.inQ = w :: q)
    (hmore : s.rdBuf.length + 1 ≠ n) (fuel : Nat) :
    drainRead (4 * n) k (fuel + 1) s =
      drainRead (4 * n) k fuel { s with inQ := q, rdBuf := s.rdBuf ++ [w] } := by
  have hr := readResult_cons (k := k) h1 h2 ho hq
  rw [collectWord_more (s := { s with inQ := q }) hmore] at hr
  exact drainRead_continue hr ⟨hs, rfl⟩ fuel

/-- The read's last word completes it and ends the drain (R123). -/
theorem drainRead_last {n k : Nat} {s : State} {w : Word32} {q : List Word32}
    (h2 : n - 1 < s.cfg.lenBound) (ho : s.outstanding = some n) (hq : s.inQ = w :: q)
    (hlast : s.rdBuf.length + 1 = n) (fuel : Nat) :
    drainRead (4 * n) k (fuel + 1) s = .next
      { s with inQ := q, results := Table.set k (s.rdBuf ++ [w]) s.results, rdBuf := [], outstanding := none,
               hpc := s.hpc + 1 } := by
  have hr := readResult_cons (k := k) (by omega) h2 ho hq
  rw [collectWord_last (s := { s with inQ := q }) hlast] at hr
  exact drainRead_stop hr (fun h => Nat.succ_ne_self _ h.2) fuel

/-- With exactly the missing words `ws` at the front of the queue, a drain takes these and completes (R123, R124). -/
theorem drainRead_completes {n k fuel : Nat} {s : State} {ws q : List Word32} (hs : s.HostReady)
    (h2 : n - 1 < s.cfg.lenBound) (ho : s.outstanding = some n) (hq : s.inQ = ws ++ q)
    (hn : s.rdBuf.length + ws.length = n) (hlt : s.rdBuf.length < n) (hfuel : ws.length ≤ fuel) :
    drainRead (4 * n) k fuel s = .next
      { s with inQ := q, results := Table.set k (s.rdBuf ++ ws) s.results, rdBuf := [], outstanding := none,
               hpc := s.hpc + 1 } := by
  induction ws generalizing s fuel with
  | nil => exact absurd hn hlt.ne
  | cons w ws ih =>
    simp only [List.length_cons] at hn hfuel
    obtain ⟨fuel, rfl⟩ := Nat.exists_eq_add_of_lt (Nat.lt_of_lt_of_le (Nat.succ_pos _) hfuel)
    rw [Nat.zero_add]
    by_cases hlast : s.rdBuf.length + 1 = n
    · obtain rfl : ws = [] := List.eq_nil_of_length_eq_zero (by omega)
      exact drainRead_last h2 ho hq hlast fuel
    · have hlen : (s.rdBuf ++ [w]).length = s.rdBuf.length + 1 := List.length_append
      calc drainRead (4 * n) k (fuel + 1) s
          = drainRead (4 * n) k fuel { s with inQ := ws ++ q, rdBuf := s.rdBuf ++ [w] } :=
            drainRead_more hs (by omega) h2 ho hq hlast fuel
        _ = _ := ih hs h2 ho rfl (by rw [hlen]; omega) (by rw [hlen]; omega) (by omega)
        _ = _ := by simp only [List.append_assoc, List.singleton_append]

/-- With fewer words `ws` at hand than are missing, a drain collects them all and yields (R122). -/
theorem drainRead_blocks {n k fuel : Nat} {s : State} {ws : List Word32} (hs : s.HostReady)
    (h2 : n - 1 < s.cfg.lenBound) (ho : s.outstanding = some n) (hq : s.inQ = ws)
    (hn : s.rdBuf.length + ws.length < n) (hfuel : ws.length < fuel) :
    drainRead (4 * n) k fuel s = .next { s with inQ := [], rdBuf := s.rdBuf ++ ws, ctx := .target } := by
  induction ws generalizing s fuel with
  | nil =>
    obtain ⟨fuel, rfl⟩ := Nat.exists_eq_add_of_lt hfuel
    have hr := readResult_empty (k := k) (by omega) h2 ho hq
    rw [drainRead_stop hr (fun h => nomatch h.1.1), List.append_nil, switchTo, ← hq]
  | cons w ws ih =>
    simp only [List.length_cons] at hn hfuel
    obtain ⟨fuel, rfl⟩ := Nat.exists_eq_add_of_lt hfuel
    have hlen : (s.rdBuf ++ [w]).length = s.rdBuf.length + 1 := List.length_append
    calc drainRead (4 * n) k (ws.length + 1 + fuel + 1) s
        = drainRead (4 * n) k (ws.length + 1 + fuel) { s with inQ := ws, rdBuf := s.rdBuf ++ [w] } :=
          drainRead_more hs (by omega) h2 ho hq (by omega) _
      _ = _ := ih hs h2 ho rfl (by rw [hlen]; omega) (by omega)
      _ = _ := by simp only [List.append_assoc, List.singleton_append]

/-- Settles O14: the READ is issued, and the drain of its line completes or blocks by the words at hand. -/
theorem readRequestsThenDrains : Obligations.ReadRequestsThenDrains := by
  intro a n k s hs ha h1 h2 ho hb hr
  have hissue := encodeRead_issues ha h1 h2 ho hr
  have hready : (s.issueRead a n).HostReady := hs
  have hout : (s.issueRead a n).outstanding = some n := rfl
  have hbuf : (s.issueRead a n).rdBuf.length = 0 := congrArg List.length hb
  rw [exec_read, execRead_drains hs hissue hs.2]
  refine ⟨fun hn => ?_, fun hn => ?_⟩
  · have hlen : (s.inQ.take n).length = n := List.length_take_of_le hn
    have hq : (s.issueRead a n).inQ = s.inQ.take n ++ s.inQ.drop n := (List.take_append_drop n s.inQ).symm
    rw [drainRead_completes hready h2 hout hq (by omega) (by omega) (by rw [hlen]; exact Nat.le_succ_of_le hn)]
    simp only [State.issueRead, hb, ho, List.nil_append]
  · have hfew : (s.issueRead a n).inQ.length < n := hn
    rw [drainRead_blocks hready h2 hout rfl (by omega) (Nat.lt_succ_self _)]
    simp only [State.issueRead, hb, List.nil_append]

end Sys2Proof.Machine

namespace Sys2Proof.Machine

/-! ## Only `encode_read` makes a read outstanding (R102) -/

/-- From `s` to `t` no read became outstanding: what is outstanding in `t`, if anything, already was in `s` (R102). -/
def State.NoNewRead (s t : State) : Prop := t.outstanding = none ∨ t.outstanding = s.outstanding

/-- `encode_read` faults, or finds no read outstanding (R101, R207). -/
theorem encodeRead_noNewRead_or {a b : Nat} {s t : State} (h : encodeRead a b s = .next t) :
    s.NoNewRead t ∨ s.outstanding = none := by
  obtain ⟨e, rfl⟩ | ⟨n, -, ho, -⟩ := encodeRead_next h
  · exact .inl (.inr rfl)
  · exact .inr ho

/-- `read` is no other: if its first line faults, nothing becomes outstanding, and else nothing was (R87, R128). -/
theorem execRead_noNewRead_or {a b k : Nat} {s t : State} (h : execRead a b k s = .next t) :
    s.NoNewRead t ∨ s.outstanding = none := by
  obtain ⟨-, -, u, hu, ⟨-, rfl⟩ | ⟨hf, -⟩⟩ := execRead_next h
  · exact encodeRead_noNewRead_or hu
  · obtain ⟨e, rfl⟩ | ⟨n, -, ho, -⟩ := encodeRead_next hu
    · cases hf
    · exact .inr ho

theorem encodeWrite_outstanding {a b : Nat} {p : List Word32} {s t : State} (h : encodeWrite a b p s = .next t) :
    t.outstanding = s.outstanding := by
  obtain ⟨e, rfl⟩ | ⟨n, -, -, rfl⟩ := encodeWrite_next h
  · rfl
  · rfl

theorem atReference_outstanding {s t : State} {why : Refusal} {act : RefTarget → RefTarget}
    (h : atReference s why act = .next t) : t.outstanding = s.outstanding := by
  obtain ⟨-, rfl⟩ := atReference_next h
  rfl

@[simp] theorem channelStep_outstanding (r v : Bool) (w : Word32) (s : State) :
    (channelStep r v w s).outstanding = s.outstanding := by
  rw [channelStep_eq]

/-- A word collected ends the read or leaves it outstanding (R122, R123). -/
theorem collectWord_noNewRead (n k : Nat) (w : Word32) (s : State) : s.NoNewRead (collectWord n k w s) := by
  by_cases h : s.rdBuf.length + 1 = n
  · rw [collectWord_last h]
    exact .inl rfl
  · rw [collectWord_more h]
    exact .inr rfl

theorem readResult_noNewRead {b k : Nat} {s t : State} (h : readResult b k s = .next t) : s.NoNewRead t := by
  obtain ⟨e, rfl⟩ | ⟨n, -, -, ⟨-, rfl⟩ | ⟨w, q, -, rfl⟩⟩ := readResult_next h
  · exact .inr rfl
  · exact .inr rfl
  · exact collectWord_noNewRead n k w { s with inQ := q }

/-- The instructions that run `encode_read`: `read_req`, `read`, and the READ row in the host context (R87, R101,
log 9). -/
def RunsEncodeRead (i : Instr) : Prop :=
  (∃ a b, i = .readReq a b) ∨ (∃ a b k, i = .read a b k) ∨ (∃ a n, i = .wireRead a n)

/-- Whatever an instruction answers, no read became outstanding, unless it runs `encode_read` and none was. -/
theorem exec_noNewRead_or {i : Instr} {s t : State} (h : exec i s = .next t) :
    s.NoNewRead t ∨ s.outstanding = none ∧ RunsEncodeRead i := by
  cases i with
  | readReq a b =>
    obtain ⟨-, -, h⟩ := whenHost_next h
    exact (encodeRead_noNewRead_or h).imp_right fun ho => ⟨ho, .inl ⟨a, b, rfl⟩⟩
  | read a b k => exact (execRead_noNewRead_or h).imp_right fun ho => ⟨ho, .inr (.inl ⟨a, b, k, rfl⟩)⟩
  | wireRead a n =>
    obtain ⟨-, ⟨-, h⟩ | ⟨-, h⟩⟩ := byContext_next h
    · exact (encodeRead_noNewRead_or h).imp_right fun ho => ⟨ho, .inr (.inr ⟨a, n, rfl⟩)⟩
    · exact .inl (.inr (atReference_outstanding h))
  | wireWrite a n p =>
    obtain ⟨-, ⟨-, h⟩ | ⟨-, h⟩⟩ := byContext_next h
    · exact .inl (.inr (encodeWrite_outstanding h))
    · exact .inl (.inr (atReference_outstanding h))
  | reservedHeader w =>
    obtain ⟨-, ⟨-, h⟩ | ⟨-, h⟩⟩ := byContext_next h
    · cases h
    · exact .inl (.inr (atReference_outstanding h))
  | write a b p | writeChunk a b p =>
    obtain ⟨-, -, h⟩ := whenHost_next h
    exact .inl (.inr (encodeWrite_outstanding h))
  | readResp b k =>
    obtain ⟨-, -, h⟩ := whenHost_next h
    exact .inl (readResult_noNewRead h)
  | startProgram =>
    obtain ⟨-, -, rfl⟩ := execStartProgram_next h
    exact .inl (.inr rfl)
  | reset =>
    obtain ⟨-, -, rfl⟩ := execReset_next h
    exact .inl (.inr rfl)
  | yield =>
    obtain ⟨-, -, h⟩ := whenHost_next h
    cases h
    exact .inl (.inr rfl)
  | idle =>
    obtain ⟨-, -, h⟩ := whenHost_next h
    split at h
    · cases h
    · cases h
      exact .inl (.inr rfl)
  | readResponse ws =>
    obtain ⟨-, -, h⟩ := whenTarget_next h
    rw [acceptWords_eq] at h
    cases h
    exact .inl (.inr rfl)
  | offerOutboundWord | acceptInboundWord w =>
    obtain ⟨-, -, h⟩ := whenTarget_next h
    cases h
    exact .inl (.inr rfl)
  | channelStep r v w =>
    obtain ⟨-, -, h⟩ := whenTarget_next h
    cases h
    exact .inl (.inr (channelStep_outstanding r v w s))
  | targetTurn r v w =>
    obtain ⟨-, -, rfl⟩ := execTargetTurn_next h
    exact .inl (.inr (channelStep_outstanding r v w s))

/-- Settles O43, from `exec_noNewRead_or`: a new outstanding value excludes its first case. -/
theorem onlyEncodeReadSetsOutstanding : Obligations.OnlyEncodeReadSetsOutstanding :=
  fun _ _ _ h hsome hnew => (exec_noNewRead_or h).resolve_left fun hold => hold.elim hsome hnew

/-! ## The encoder on a request its checks allow (R101, R106) -/

/-- The words of a READ, part by part (R72). -/
theorem encRead_eq (c : Params) (a n : Nat) :
    encRead c a n = [c.opRead] ++ chunks c.addrChunks a ++ chunks c.lenChunks (n - 1) := rfl

/-- The words of a WRITE, part by part (R73). -/
theorem encWrite_eq (c : Params) (a n : Nat) (p : List Word32) :
    encWrite c a n p = [c.opWrite] ++ chunks c.addrChunks a ++ chunks c.lenChunks (n - 1) ++ p := rfl

/-- The state after `encode_write` has issued a WRITE of the `n` words `p` (R106). -/
def State.issueWrite (a n : Nat) (p : List Word32) (s : State) : State :=
  { s with outQ := s.outQ ++ encWrite s.cfg a n p, hpc := s.hpc + 1 }

/-- A WRITE that its checks and the queue allow is issued, whatever read is outstanding (R106, D31). -/
theorem encodeWrite_issues {a n : Nat} {p : List Word32} {s : State} (ha : a < s.cfg.addrBound) (h1 : 1 ≤ n)
    (h2 : n - 1 < s.cfg.lenBound) (hp : p.length = n) (hr : roomFor s (s.cfg.headWords + n) = true) :
    encodeWrite a (4 * n) p s = .next (s.issueWrite a n p) := by
  rw [encodeWrite, checkTransfer_words ha h1 h2]
  exact (if_neg (not_not.2 hp)).trans (pushOut_room (by rwa [encWrite_length, hp]) _)

theorem exec_write {s : State} (h : s.HostReady) (a b : Nat) (p : List Word32) :
    exec (.write a b p) s = encodeWrite a b p s := whenHost_ready h.1 h.2 _

theorem exec_writeChunk {s : State} (h : s.HostReady) (a b : Nat) (p : List Word32) :
    exec (.writeChunk a b p) s = encodeWrite a b p s := whenHost_ready h.1 h.2 _

/-- In the host context the READ row is `encode_read` of its words' bytes (C4, log 9). -/
theorem exec_wireRead_host {s : State} (h : s.HostReady) (a n : Nat) :
    exec (.wireRead a n) s = encodeRead a (4 * n) s := byContext_host h.1 h.2 _ _

/-- In the host context the WRITE row is `encode_write` of its words' bytes (C4, log 9). -/
theorem exec_wireWrite_host {s : State} (h : s.HostReady) (a n : Nat) (p : List Word32) :
    exec (.wireWrite a n p) s = encodeWrite a (4 * n) p s := byContext_host h.1 h.2 _ _

/-- A positive byte count of whole words is `4·n` for a positive word count `n` (R100). -/
theorem words_of_bytes {b : Nat} (h4 : b % 4 = 0) (h0 : b ≠ 0) : 1 ≤ b / 4 ∧ 4 * (b / 4) = b := by
  omega

/-- Settles O1: `read_req` is `encode_read` of `b / 4` words, which issues the READ. -/
theorem readReqPushesRead : Obligations.ReadReqPushesRead := by
  intro a b s hs ha h4 h0 hl ho hr
  obtain ⟨h1, hb⟩ := words_of_bytes h4 h0
  have hissue := encodeRead_issues ha h1 hl ho hr
  rw [hb, State.issueRead, encRead_eq] at hissue
  exact (exec_readReq hs a b).trans hissue

/-- Settles O2: both names are `encode_write` of `b / 4` words, which issues the WRITE. -/
theorem writePushesWrite : Obligations.WritePushesWrite := by
  intro a b p s hs ha h4 h0 hl hp hr i hi
  obtain ⟨h1, hb⟩ := words_of_bytes h4 h0
  have hissue := encodeWrite_issues ha h1 hl hp (by rwa [← hp])
  rw [hb, State.issueWrite, encWrite_eq] at hissue
  simp only [List.mem_cons, List.not_mem_nil, or_false] at hi
  obtain rfl | rfl := hi
  · exact (exec_write hs a b p).trans hissue
  · exact (exec_writeChunk hs a b p).trans hissue

/-- Settles O3: in the host context the two rows are `encode_read` and `encode_write` of `4·n` bytes. -/
theorem wireCommandsAreIssued : Obligations.WireCommandsAreIssued := by
  intro a n p s hs ha h1 hn
  have h2 : n - 1 < s.cfg.lenBound := Nat.sub_one_lt_of_le h1 hn
  refine ⟨fun ho hr => ?_, fun hp hr => ?_⟩
  · rw [exec_wireRead_host hs, encodeRead_issues ha h1 h2 ho hr, State.issueRead, encRead_eq]
  · rw [exec_wireWrite_host hs, encodeWrite_issues ha h1 h2 hp hr, State.issueWrite, encWrite_eq]

end Sys2Proof.Machine

namespace Sys2Proof.Machine

/-! ## One step of `read_resp` (R122, R123) -/

/-- What a result buffer holds after a write to one name (R27). -/
theorem resultOf_set (k j : Nat) (ws : List Word32) (s : State) :
    resultOf { s with results := Table.set k ws s.results } j = if j = k then some ws else resultOf s j := by
  split
  · rename_i h
    exact h ▸ Table.get_set_same k ws s.results
  · rename_i h
    exact Table.get_set_other h ws s.results

/-- Settles O12: the answers of `readResult` on an empty and on a non-empty queue, and the collected word by whether
it is the last. -/
theorem readRespMovesOneWord : Obligations.ReadRespMovesOneWord := by
  intro n k s hs h1 h2 ho
  rw [exec_readResp hs]
  refine ⟨fun hq => readResult_empty h1 h2 ho hq, fun w q hq hmore => ?_, fun w q hq hlast => ?_,
    fun j ws => resultOf_set k j ws s⟩
  · rw [readResult_cons h1 h2 ho hq, collectWord_more (s := { s with inQ := q }) hmore]
  · rw [readResult_cons h1 h2 ho hq, collectWord_last (s := { s with inQ := q }) hlast]

/-! ## A run on a `read_resp` line (R122 to R124) -/

/-- With exactly the missing words `ws` at the front of the queue, as many steps as these take them and complete the
read (R123, R124). -/
theorem run_completes_read {n k : Nat} {s : State} {ws q : List Word32} (hs : s.HostReady)
    (hl : s.OnLine (.readResp (4 * n) k)) (h2 : n - 1 < s.cfg.lenBound) (ho : s.outstanding = some n)
    (hq : s.inQ = ws ++ q) (hn : s.rdBuf.length + ws.length = n) (hlt : s.rdBuf.length < n) :
    core.run ws.length s = .next
      { s with inQ := q, results := Table.set k (s.rdBuf ++ ws) s.results, rdBuf := [], outstanding := none,
               hpc := s.hpc + 1 } := by
  induction ws generalizing s with
  | nil => exact absurd hn hlt.ne
  | cons w ws ih =>
    rw [List.length_cons] at hn ⊢
    obtain ⟨-, hmore, hlast, -⟩ := readRespMovesOneWord n k s hs (by omega) h2 ho
    have hline := step_line hs.1 hl
    by_cases hn1 : s.rdBuf.length + 1 = n
    · obtain rfl : ws = [] := List.eq_nil_of_length_eq_zero (by omega)
      exact (run_one s).trans (hline.trans (hlast w q hq hn1))
    · have hlen : (s.rdBuf ++ [w]).length = s.rdBuf.length + 1 := List.length_append
      calc core.run (ws.length + 1) s
          = core.run ws.length { s with inQ := ws ++ q, rdBuf := s.rdBuf ++ [w] } :=
            run_succ_next (hline.trans (hmore w (ws ++ q) hq hn1)) _
        _ = _ := ih hs hl h2 ho rfl (by rw [hlen]; omega) (by rw [hlen]; omega)
        _ = _ := by simp only [List.append_assoc, List.singleton_append]

/-- Settles O13: the missing words are the first of the queue, and the run takes these. -/
theorem readRespDrainsExactlyItsWords : Obligations.ReadRespDrainsExactlyItsWords := by
  intro n k s hs hp h2 ho hl hle
  obtain ⟨-, hlt⟩ : 1 ≤ n ∧ s.rdBuf.length < n := by simpa only [State.PendingReadOk, ho] using hp
  have hlen : (s.inQ.take (n - s.rdBuf.length)).length = n - s.rdBuf.length := List.length_take_of_le hle
  have hrun := run_completes_read hs hl h2 ho (List.take_append_drop (n - s.rdBuf.length) s.inQ).symm
    (by omega) hlt
  rwa [hlen] at hrun

/-! ## A read that no word answers (R126, R213) -/

/-- The host is blocked on its `read_resp` line: the read of `n` words is outstanding, none is at hand, and an
external collaborator stands behind the channel (R122, R126). -/
structure State.BlockedRead (n k : Nat) (s : State) : Prop where
  ready : s.HostReady
  line : s.OnLine (.readResp (4 * n) k)
  pos : 1 ≤ n
  bound : n - 1 < s.cfg.lenBound
  out : s.outstanding = some n
  empty : s.inQ = []
  ext : s.collaborator = .external

/-- From `s` to `t` the read has not moved: its line, its words collected and its count are the same, and no result was
written. -/
def State.SameRead (s t : State) : Prop :=
  t.hpc = s.hpc ∧ t.rdBuf = s.rdBuf ∧ t.results = s.results ∧ t.outstanding = s.outstanding

theorem State.SameRead.trans {s t u : State} (h : s.SameRead t) (h' : t.SameRead u) : s.SameRead u := by
  obtain ⟨hpc, hbuf, hres, hout⟩ := h
  obtain ⟨hpc', hbuf', hres', hout'⟩ := h'
  exact ⟨hpc'.trans hpc, hbuf'.trans hbuf, hres'.trans hres, hout'.trans hout⟩

theorem nextDraw_scripted {s : State} {d : Draw} {ds : List Draw} (hx : s.collaborator = .external)
    (hd : s.draws = d :: ds) : nextDraw s = d := by
  simp [nextDraw, hx, hd]

/-- A target step is the turn of its draw (R185, R187). -/
theorem step_target {s : State} (h : s.TargetReady) :
    step s = .next (endTurn (nextDraw s).inValid (if (nextDraw s).outReady then outBits s else none)
      (channelStep (nextDraw s).outReady (nextDraw s).inValid (nextDraw s).inBits s)) := by
  rw [step, fetch_target h.1]
  exact whenTarget_ready h.1 h.2 _

/-- A blocked read whose next turn brings no word is blocked again after that turn, two steps on (R126). -/
theorem State.BlockedRead.turn {n k : Nat} {s : State} {d : Draw} {ds : List Draw} (h : s.BlockedRead n k)
    (hd : s.draws = d :: ds) (hv : d.inValid = false) :
    ∃ t, core.run 2 s = .next t ∧ t.BlockedRead n k ∧ s.SameRead t ∧ t.draws = ds := by
  obtain ⟨hyield, -⟩ := readRespMovesOneWord n k s h.ready h.pos h.bound h.out
  have hstep : step s = .next (switchTo .target s) := (step_line h.ready.1 h.line).trans (hyield h.empty)
  have hturn := step_target (s := switchTo .target s) ⟨rfl, h.ready.2⟩
  rw [nextDraw_scripted (s := switchTo .target s) h.ext hd, hv, channelStep_eq] at hturn
  refine ⟨_, (run_succ_next hstep 1).trans ((run_one _).trans hturn), ⟨⟨rfl, h.ready.2⟩, h.line, h.pos, h.bound,
    h.out, ?_, h.ext⟩, ⟨rfl, rfl, rfl, rfl⟩, congrArg List.tail hd⟩
  exact (List.append_nil _).trans h.empty

/-- Without an arriving word a blocked read is blocked after any number of turns (R126). -/
theorem State.BlockedRead.waits {n k : Nat} {ds rest : List Draw} {s : State} (h : s.BlockedRead n k)
    (hd : s.draws = ds ++ rest) (hv : ∀ d ∈ ds, d.inValid = false) :
    ∃ t, core.run (2 * ds.length) s = .next t ∧ t.BlockedRead n k ∧ s.SameRead t ∧ t.draws = rest := by
  induction ds generalizing s with
  | nil => exact ⟨s, rfl, h, ⟨rfl, rfl, rfl, rfl⟩, hd⟩
  | cons d ds ih =>
    obtain ⟨hd1, hds⟩ := List.forall_mem_cons.1 hv
    obtain ⟨u, hrun, hu, hsame, hdraws⟩ := h.turn hd hd1
    obtain ⟨t, hrun', ht, hsame', hrest⟩ := ih hu hdraws hds
    refine ⟨t, ?_, ht, hsame.trans hsame', hrest⟩
    rw [List.length_cons, Nat.mul_succ, Nat.add_comm, run_add hrun, hrun']

/-- Settles O16: the induction on the draws of `State.BlockedRead.waits`. -/
theorem unansweredReadWaits : Obligations.UnansweredReadWaits := by
  intro n k ds rest s hs h1 h2 ho hl hq hx hd hv
  obtain ⟨t, hrun, ht, ⟨hpc, hbuf, hres, hout⟩, hrest⟩ :=
    State.BlockedRead.waits ⟨hs, hl, h1, h2, ho, hq, hx⟩ hd hv
  exact ⟨t, hrun, ht.ready, hpc, hbuf, hres, hout, ht.empty, hrest⟩

/-! ## Inbound values as a part of the state (R120, R167) -/

/-- The fields of a state that hold words received or to be received. -/
structure Inbound where
  inQ : List Word32
  rdBuf : List Word32
  results : List (Nat × List Word32)
  recvLog : List Word32
  draws : List Draw

/-- `s` with its inbound fields exchanged for those of `v`. -/
def State.withInbound (v : Inbound) (s : State) : State :=
  { s with inQ := v.inQ, rdBuf := v.rdBuf, results := v.results, recvLog := v.recvLog, draws := v.draws }

/-- `v` differs from the inbound fields of `s` at most in the values of the words, and the target of `s` is external
(log 13). For an update of `s` that touches none of these fields, `{ h with }` is the same `h : v.Fits s`. -/
structure Inbound.Fits (v : Inbound) (s : State) : Prop where
  ext : s.collaborator = .external
  inQ : s.inQ.length = v.inQ.length
  rdBuf : s.rdBuf.length = v.rdBuf.length
  recvLog : s.recvLog.length = v.recvLog.length
  results : s.results.map (·.1) = v.results.map (·.1)
  draws : s.draws.map (fun d => (d.outReady, d.inValid)) = v.draws.map (fun d => (d.outReady, d.inValid))

/-- The second of two states that differ at most in inbound values is the first with other inbound fields. -/
theorem sameButInboundValues_iff {s s' : State} :
    SameButInboundValues s s' ↔ ∃ v : Inbound, v.Fits s ∧ s' = s.withInbound v := by
  constructor
  · rintro ⟨hout, hctx, hpc, ho, hf, hsent, hcfg, hprog, hx, hx', hturns, htarget, hin, hbuf, hrecv, hres, hdraws⟩
    refine ⟨⟨s'.inQ, s'.rdBuf, s'.results, s'.recvLog, s'.draws⟩, ⟨hx, hin, hbuf, hrecv, hres, hdraws⟩, ?_⟩
    rw [State.withInbound, hout, hctx, hpc, ho, hf, hsent, hcfg, hprog, hx, ← hx', hturns, htarget]
  · rintro ⟨v, h, rfl⟩
    exact ⟨rfl, rfl, rfl, rfl, rfl, rfl, rfl, rfl, h.ext, h.ext, rfl, rfl, h.inQ, h.rdBuf, h.recvLog, h.results,
      h.draws⟩

/-- A next state of `x` is met by one of `y` that differs at most in inbound values. -/
def SteersAlike (x y : Result) : Prop :=
  ∀ t, x = .next t → ∃ t', y = .next t' ∧ SameButInboundValues t t'

theorem SteersAlike.next {s : State} {v : Inbound} (h : v.Fits s) :
    SteersAlike (.next s) (.next (s.withInbound v)) := by
  rintro t ⟨⟩
  exact ⟨_, rfl, sameButInboundValues_iff.2 ⟨v, h, rfl⟩⟩

theorem SteersAlike.fault (r : Fault) (y : Result) : SteersAlike (.fault r) y := nofun

theorem SteersAlike.refused (r : Refusal) (y : Result) : SteersAlike (.refused r) y := nofun

/-! ## Each operation of the host on two such states -/

theorem SteersAlike.whenHost {s : State} {x y : Result} (v : Inbound) (h : SteersAlike x y) :
    SteersAlike (whenHost s x) (whenHost (s.withInbound v) y) := by
  intro t ht
  obtain ⟨hc, hf, hx⟩ := whenHost_next ht
  rw [whenHost_ready (s := s.withInbound v) hc hf]
  exact h t hx

theorem SteersAlike.byContext_host {s : State} {x y x' y' : Result} (v : Inbound) (hc : s.ctx = .host)
    (h : SteersAlike x y) : SteersAlike (byContext s x x') (byContext (s.withInbound v) y y') := by
  intro t ht
  obtain ⟨hf, ⟨-, hx⟩ | ⟨hc', -⟩⟩ := byContext_next ht
  · rw [Machine.byContext_host (s := s.withInbound v) hc hf]
    exact h t hx
  · exact absurd (hc.symm.trans hc') nofun

/-- In the host context a channel operation has no next state (R182, R235). -/
theorem SteersAlike.whenTarget_host {s : State} (hc : s.ctx = .host) (x y : Result) :
    SteersAlike (whenTarget s x) y := by
  intro t ht
  obtain ⟨hc', -, -⟩ := whenTarget_next ht
  exact absurd (hc.symm.trans hc') nofun

theorem raiseFault_steersAlike {s : State} {v : Inbound} (h : v.Fits s) (e : FaultCode) :
    SteersAlike (raiseFault e s) (raiseFault e (s.withInbound v)) :=
  .next (s := { s with fault := some e }) { h with }

/-- A push looks at the Outbound Queue and the parameters only (R21). -/
theorem pushOut_steersAlike {s : State} {v : Inbound} (ws : List Word32) (rest rest' : State → Result)
    (h : SteersAlike (rest { s with outQ := s.outQ ++ ws }) (rest' ({ s with outQ := s.outQ ++ ws }.withInbound v))) :
    SteersAlike (pushOut ws s rest) (pushOut ws (s.withInbound v) rest') := by
  intro t ht
  obtain ⟨hr, hrest⟩ := pushOut_next ht
  rw [pushOut_room (s := s.withInbound v) hr]
  exact h t hrest

theorem encodeRead_steersAlike {s : State} {v : Inbound} (h : v.Fits s) (a b : Nat) :
    SteersAlike (encodeRead a b s) (encodeRead a b (s.withInbound v)) := by
  have hcfg : (s.withInbound v).cfg = s.cfg := rfl
  have hout : (s.withInbound v).outstanding = s.outstanding := rfl
  rw [encodeRead, encodeRead, hcfg, hout]
  split
  · exact raiseFault_steersAlike h _
  · rename_i n _
    split
    · exact raiseFault_steersAlike h _
    · exact pushOut_steersAlike _ _ _
        (.next (s := s.issueRead a n) { h with })

theorem encodeWrite_steersAlike {s : State} {v : Inbound} (h : v.Fits s) (a b : Nat) (p : List Word32) :
    SteersAlike (encodeWrite a b p s) (encodeWrite a b p (s.withInbound v)) := by
  have hcfg : (s.withInbound v).cfg = s.cfg := rfl
  rw [encodeWrite, encodeWrite, hcfg]
  split
  · exact raiseFault_steersAlike h _
  · rename_i n _
    split
    · exact raiseFault_steersAlike h _
    · exact pushOut_steersAlike _ _ _
        (.next (s := s.issueWrite a n p) { h with })

/-- The names a table lists after a write depend on the names it listed before, not on the values. -/
theorem Table.set_names_congr {α : Type} (k : Nat) (u v : α) {t t' : List (Nat × α)}
    (h : t.map (·.1) = t'.map (·.1)) : (Table.set k u t).map (·.1) = (Table.set k v t').map (·.1) := by
  induction t generalizing t' with
  | nil =>
    obtain rfl : t' = [] := List.map_eq_nil_iff.1 h.symm
    rfl
  | cons e t ih =>
    obtain ⟨⟨j, x⟩, r, rfl, rfl, hr⟩ := List.map_eq_cons_iff.1 h.symm
    rcases Nat.lt_trichotomy k e.1 with hlt | heq | hgt
    · simp [Table.set, hlt, hr]
    · simp [Table.set, heq, hr]
    · have hnlt : ¬ k < e.1 := by omega
      have hne : ¬ k = e.1 := by omega
      simp [Table.set, hnlt, hne, ih hr.symm]

/-- Whether a collected word is the read's last is a matter of lengths (R122, R123). -/
theorem collectWord_steersAlike {s : State} {v : Inbound} (h : v.Fits s) (n k : Nat) (w w' : Word32) :
    SteersAlike (.next (collectWord n k w s)) (.next (collectWord n k w' (s.withInbound v))) := by
  by_cases hlast : s.rdBuf.length + 1 = n
  · have hlast' : (s.withInbound v).rdBuf.length + 1 = n := h.rdBuf ▸ hlast
    rw [collectWord_last hlast, collectWord_last hlast']
    exact .next (v := { v with results := Table.set k (v.rdBuf ++ [w']) v.results, rdBuf := [] })
      { h with rdBuf := rfl, results := Table.set_names_congr k _ _ h.results }
  · have hmore' : (s.withInbound v).rdBuf.length + 1 ≠ n := h.rdBuf ▸ hlast
    rw [collectWord_more hlast, collectWord_more hmore']
    exact .next (v := { v with rdBuf := v.rdBuf ++ [w'] })
      { h with rdBuf := by rw [List.length_append, List.length_append, h.rdBuf]; rfl }

theorem readResult_steersAlike {s : State} {v : Inbound} (h : v.Fits s) (b k : Nat) :
    SteersAlike (readResult b k s) (readResult b k (s.withInbound v)) := by
  have hcfg : (s.withInbound v).cfg = s.cfg := rfl
  have hout : (s.withInbound v).outstanding = s.outstanding := rfl
  have hinQ : (s.withInbound v).inQ = v.inQ := rfl
  have hlen := h.inQ
  rw [readResult, readResult, hcfg, hout, hinQ]
  split
  · exact raiseFault_steersAlike h _
  · rename_i n _
    split
    · exact raiseFault_steersAlike h _
    · cases hq : s.inQ with
      | nil =>
        have hq' : v.inQ = [] := List.eq_nil_of_length_eq_zero (by rw [← hlen, hq]; rfl)
        rw [hq']
        exact .next (s := switchTo .target s) { h with }
      | cons w q =>
        obtain ⟨w', q', hq'⟩ : ∃ w' q', v.inQ = w' :: q' :=
          List.exists_cons_of_length_pos (by rw [← hlen, hq]; exact Nat.succ_pos _)
        rw [hq, hq'] at hlen
        rw [hq']
        exact collectWord_steersAlike (s := { s with inQ := q }) (v := { v with inQ := q' })
          { h with inQ := Nat.succ.inj hlen } n k w w'

/-- In the host context every instruction that may be a line of a program goes alike in both states. -/
theorem exec_steersAlike_host {s : State} {v : Inbound} (h : v.Fits s) (hc : s.ctx = .host) {i : Instr}
    (hi : ∀ a b k, i ≠ .read a b k) : SteersAlike (exec i s) (exec i (s.withInbound v)) := by
  cases i with
  | wireRead a n => exact .byContext_host v hc (encodeRead_steersAlike h a _)
  | wireWrite a n p => exact .byContext_host v hc (encodeWrite_steersAlike h a _ p)
  | reservedHeader w => exact .byContext_host v hc (.refused _ _)
  | readReq a b => exact .whenHost v (encodeRead_steersAlike h a b)
  | write a b p | writeChunk a b p => exact .whenHost v (encodeWrite_steersAlike h a b p)
  | readResp b k => exact .whenHost v (readResult_steersAlike h b k)
  | read a b k => exact absurd rfl (hi a b k)
  | startProgram =>
    refine .whenHost v (pushOut_steersAlike _ _ _ ?_)
    exact .next (s := advance { s with outQ := s.outQ ++ _ }) { h with }
  | reset =>
    refine .whenHost v (pushOut_steersAlike _ _ _ (pushOut_steersAlike _ _ _ ?_))
    exact .next (s := advance { s with outQ := s.outQ ++ _ ++ _ }) { h with }
  | yield => exact .whenHost v (.next (s := advance (switchTo .target s)) { h with })
  | idle =>
    refine .whenHost v ?_
    have hlines : programLines (s.withInbound v) = programLines s := rfl
    have hpc : (s.withInbound v).hpc = s.hpc := rfl
    rw [hlines, hpc]
    split
    · exact .fault _ _
    · exact .next (s := switchTo .target s) { h with }
  | readResponse ws | offerOutboundWord | acceptInboundWord w | channelStep r v w | targetTurn r v w =>
    exact .whenTarget_host hc _ _

/-! ## The turn, and the step (R166, R185, R187) -/

/-- The draws of the two states open the same halves of the channel (R246 has no part in it: the target is
external). -/
theorem nextDraw_steersAlike {s : State} {v : Inbound} (h : v.Fits s) :
    (nextDraw (s.withInbound v)).outReady = (nextDraw s).outReady ∧
    (nextDraw (s.withInbound v)).inValid = (nextDraw s).inValid := by
  have hdraws := h.draws
  cases hd : s.draws with
  | nil =>
    rw [hd] at hdraws
    have hd' : (s.withInbound v).draws = [] := List.map_eq_nil_iff.1 hdraws.symm
    have hx' : (s.withInbound v).collaborator = .external := h.ext
    have hturns : (s.withInbound v).turns = s.turns := rfl
    simp [nextDraw, h.ext, hx', hd, hd', hturns]
  | cons d ds =>
    rw [hd] at hdraws
    obtain ⟨d', ds', hd', hhead, -⟩ := List.map_eq_cons_iff.1 hdraws.symm
    obtain ⟨hready, hvalid⟩ := Prod.mk.inj hhead
    rw [nextDraw_scripted h.ext hd, nextDraw_scripted (s := s.withInbound v) h.ext hd']
    exact ⟨hready, hvalid⟩

/-- Turns that open the same halves of the channel move as many words, whatever the words (R167). -/
theorem targetTurn_steersAlike {s : State} {v : Inbound} (h : v.Fits s) (ready valid : Bool) (w w' : Word32) :
    SteersAlike (execTargetTurn ready valid w s) (execTargetTurn ready valid w' (s.withInbound v)) := by
  intro t ht
  obtain ⟨hc, hf, rfl⟩ := execTargetTurn_next ht
  refine ⟨_, whenTarget_ready (s := s.withInbound v) hc hf _, ?_⟩
  rw [channelStep_eq, channelStep_eq]
  refine sameButInboundValues_iff.2
    ⟨{ v with
        inQ := v.inQ ++ (if valid then [w'] else [])
        recvLog := v.recvLog ++ (if valid then [w'] else [])
        draws := v.draws.tail }, { h with inQ := ?_, recvLog := ?_, draws := ?_ }, rfl⟩
  · cases valid <;> simp [h.inQ]
  · cases valid <;> simp [h.recvLog]
  · simp only [endTurn_draws, List.map_tail, h.draws]

/-- What is fetched is never the pseudo-operation `read`: it is two lines (R87). -/
theorem fetch_ne_read (s : State) (a b k : Nat) : fetch s ≠ .read a b k := by
  intro h
  cases hc : s.ctx with
  | host =>
    rcases hl : (programLines s)[s.hpc]? with _ | i
    · cases (fetch_end hc (List.getElem?_eq_none_iff.1 hl)).symm.trans h
    · obtain rfl : i = .read a b k := (fetch_line hc hl).symm.trans h
      exact read_not_line s a b k (List.mem_of_getElem? hl)
  | target => cases (fetch_target hc).symm.trans h

/-- What the host fetches is read off its program, which holds no inbound value (R182). -/
theorem fetch_withInbound_host {s : State} (v : Inbound) (hc : s.ctx = .host) :
    fetch (s.withInbound v) = fetch s := by
  rw [fetch, fetch, show (s.withInbound v).ctx = s.ctx from rfl, hc]
  rfl

/-- A step of one of the two states is met by a step of the other. -/
theorem step_steersAlike {s : State} {v : Inbound} (h : v.Fits s) : SteersAlike (step s) (step (s.withInbound v)) := by
  cases hc : s.ctx with
  | host =>
    rw [step, step, fetch_withInbound_host v hc]
    exact exec_steersAlike_host h hc (fetch_ne_read s)
  | target =>
    obtain ⟨hready, hvalid⟩ := nextDraw_steersAlike h
    rw [step, step, fetch_target hc, fetch_target (s := s.withInbound v) hc, hready, hvalid]
    exact targetTurn_steersAlike h _ _ _ _

/-- Settles O45: the second state is the first with other inbound values, and their steps agree. -/
theorem inboundValuesSteerNothing : Obligations.InboundValuesSteerNothing := by
  intro s s' t hsame hstep
  obtain ⟨v, h, rfl⟩ := sameButInboundValues_iff.1 hsame
  exact step_steersAlike h t hstep

end Sys2Proof.Machine

namespace Sys2Proof.Machine

/-! ## The register pokes (R140, R141, R143) -/

/-- Room for more words is room for fewer. -/
theorem roomFor_of_le {s : State} {j k : Nat} (hjk : j ≤ k) (h : roomFor s k = true) : roomFor s j = true := by
  cases hd : s.cfg.queueDepth with
  | none => exact roomFor_unbounded hd j
  | some d =>
    simp only [roomFor, hd, decide_eq_true_eq] at h ⊢
    omega

/-- With room for both, two pushes append their words in order and go on. -/
theorem pushOut_pushOut_room {s : State} {ws vs : List Word32} (h : roomFor s (ws.length + vs.length) = true)
    (rest : State → Result) :
    pushOut ws s (fun s1 => pushOut vs s1 rest) = rest { s with outQ := s.outQ ++ ws ++ vs } := by
  have hfirst : roomFor s ws.length = true := roomFor_of_le (Nat.le_add_right _ _) h
  rw [pushOut_room hfirst, pushOut_room (by rwa [roomFor_pushed])]

/-- `start_program` issues one WRITE of the word 1, whatever read is outstanding (R140). -/
theorem exec_startProgram_issues {s : State} (h : s.HostReady) (hr : roomFor s (s.cfg.headWords + 1) = true) :
    exec .startProgram s = .next (s.issueWrite s.cfg.startAddr 1 [1]) :=
  (whenHost_ready h.1 h.2 _).trans (pushOut_room (by rwa [encWrite_length]) _)

/-- The `encode_write` that `start_program` stands for issues the same WRITE: its checks hold of well-formed
parameters (R141). -/
theorem exec_write_startAddr_issues {s : State} (h : s.HostReady) (hw : s.cfg.wf = true)
    (hr : roomFor s (s.cfg.headWords + 1) = true) :
    exec (.write s.cfg.startAddr 4 [1]) s = .next (s.issueWrite s.cfg.startAddr 1 [1]) := by
  obtain ⟨-, -, -, hstart, -, -⟩ := Params.wf_iff.1 hw
  rw [exec_write h]
  exact encodeWrite_issues hstart le_rfl (lenBound_pos s.cfg) rfl hr

/-- Settles O18: `start_program` and the `write` it stands for issue the same WRITE. -/
theorem startProgramPokesOnce : Obligations.StartProgramPokesOnce := by
  intro s hs hr
  have hissue := exec_startProgram_issues hs hr
  refine ⟨?_, fun hw => hissue.trans (exec_write_startAddr_issues hs hw hr).symm⟩
  rwa [State.issueWrite, encWrite_eq] at hissue

/-- Settles O19: `reset` is two pushes, each of a WRITE of one word, and the queue has room for both. -/
theorem resetPokesTwice : Obligations.ResetPokesTwice := by
  rintro s ⟨hc, hf⟩ hr
  have hroom : roomFor s ((encWrite s.cfg s.cfg.resetFirst 1 [0]).length +
      (encWrite s.cfg s.cfg.resetSecond 1 [0]).length) = true := by
    rwa [encWrite_length, encWrite_length, List.length_singleton, ← Nat.two_mul]
  have hpush := pushOut_pushOut_room hroom fun s2 => .next (advance s2)
  rw [encWrite_eq, encWrite_eq] at hpush
  exact (whenHost_ready hc hf _).trans hpush

end Sys2Proof.Machine

namespace Sys2Proof.Machine

/-! ## The channel interface (R161 to R166) -/

/-- The block offers a word exactly when one is waiting (R30). -/
theorem outValid_iff {s : State} : outValid s = true ↔ s.outQ ≠ [] := by
  simp [outValid]

/-- The block is always ready, so the inbound half takes a valid word and no other (R164). -/
theorem inboundHalf_eq (v : Bool) (w : Word32) (s : State) :
    inboundHalf v w s =
      { s with inQ := s.inQ ++ (if v then [w] else []), recvLog := s.recvLog ++ (if v then [w] else []) } := by
  cases v with
  | true => exact inboundHalf_valid w s
  | false => simp [inboundHalf_not_valid]

theorem exec_offerOutboundWord {s : State} (h : s.TargetReady) : exec .offerOutboundWord s = .next s :=
  whenTarget_ready h.1 h.2 _

/-- In its own context the channel step is the outbound handshake followed by the inbound one (R166). -/
theorem exec_channelStep (r v : Bool) (w : Word32) {s : State} (h : s.TargetReady) :
    exec (.channelStep r v w) s = .next (inboundHalf v w (outboundHalf r s)) :=
  whenTarget_ready h.1 h.2 _

/-- Settles O20: `outBits` is the front of the queue by definition, and `outValid_iff` says when there is one. -/
theorem offerChangesNothing : Obligations.OfferChangesNothing :=
  fun _ h => ⟨exec_offerOutboundWord h, rfl, outValid_iff⟩

/-- Settles O21: an arrival never looks at the outstanding read. -/
theorem acceptAppendsTheWord : Obligations.AcceptAppendsTheWord :=
  fun w _ h => exec_acceptInboundWord w h

/-- Settles O22: the inbound half is the same in all three clauses, and the outbound half moves a word only when the
target is ready and the queue holds one. -/
theorem channelStepIsTwoHandshakes : Obligations.ChannelStepIsTwoHandshakes := by
  intro v w s h arrived
  refine ⟨fun x q hq => ?accepted, fun hq => ?nothingOffered, ?notReady⟩
  case accepted => rw [exec_channelStep true v w h, outboundHalf_cons hq, inboundHalf_eq]
  case nothingOffered => rw [exec_channelStep true v w h, outboundHalf_empty hq, inboundHalf_eq]
  case notReady => rw [exec_channelStep false v w h, outboundHalf_not_ready, inboundHalf_eq]

end Sys2Proof.Machine

namespace Sys2Proof.Machine

/-! ## What a step selects, and the host's two switches of its own (R182, R184 to R187) -/

/-- Past the last line the host idles (R182, log 22). -/
theorem step_end {s : State} (hc : s.ctx = .host) (hl : (programLines s).length ≤ s.hpc) : step s = exec .idle s := by
  rw [step, fetch_end hc hl]

theorem exec_yield {s : State} (h : s.HostReady) : exec .yield s = .next (advance (switchTo .target s)) :=
  whenHost_ready h.1 h.2 _

theorem exec_idle_end {s : State} (h : s.HostReady) (hl : (programLines s).length ≤ s.hpc) :
    exec .idle s = .next (switchTo .target s) :=
  (whenHost_ready h.1 h.2 _).trans (if_neg (not_lt.2 hl))

theorem exec_idle_line {s : State} (h : s.HostReady) (hl : s.hpc < (programLines s).length) :
    exec .idle s = .fault .notIdle :=
  (whenHost_ready h.1 h.2 _).trans (if_pos hl)

/-- Settles O24: in its own context a `yield` is the switch and the move on. -/
theorem yieldSwitches : Obligations.YieldSwitches :=
  fun _ h => exec_yield h

/-- Settles O25: the two sides of the idle step's test for a line left. -/
theorem idleOnlySwitches : Obligations.IdleOnlySwitches :=
  fun _ h => ⟨exec_idle_end h, exec_idle_line h⟩

/-- Settles O26: the turn ends on the state of its channel step, and only an attached reference target moves on its
record (R247). -/
theorem targetTurnIsChannelStepThenSwitch : Obligations.TargetTurnIsChannelStepThenSwitch := by
  intro r v w s h
  have hturn : exec (.targetTurn r v w) s =
      .next (endTurn v (if r then outBits s else none) (channelStep r v w s)) := whenTarget_ready h.1 h.2 _
  refine ⟨channelStep r v w s, exec_channelStep r v w h, ?_⟩
  rw [hturn, channelStep_eq]
  cases s.collaborator <;> simp [endTurn, switchTo, outBits]

/-- Settles O27: the cases of `fetch` for each context. -/
theorem stepRunsTheSelectedOperation : Obligations.StepRunsTheSelectedOperation := by
  refine fun s => ⟨fun i => step_line, step_end, fun r v w rest hc hx hd => ?scripted, fun hc _ _ => ?free⟩
  case scripted => rw [step, fetch_target hc, nextDraw_scripted hx hd]
  case free => exact ⟨_, _, _, by rw [step, fetch_target hc]⟩

/-- A host operation is not enabled in the target context (R182). -/
theorem whenHost_target {s : State} (hf : s.fault = none) (hc : s.ctx = .target) (act : Result) :
    whenHost s act = .fault .outOfTurn := by simp [whenHost, hf, hc]

/-- A channel operation is not enabled in the host context (R185). -/
theorem whenTarget_host {s : State} (hf : s.fault = none) (hc : s.ctx = .host) (act : Result) :
    whenTarget s act = .fault .outOfTurn := by simp [whenTarget, hf, hc]

/-- Settles O36: every listed operation is its action under the guard of its own context. -/
theorem outOfTurnHasNoStep : Obligations.OutOfTurnHasNoStep := by
  intro a b k p r v w s hf
  refine ⟨fun hc i hi => ?hostOperation, fun hc i hi => ?channelOperation⟩ <;>
    simp only [List.mem_cons, List.not_mem_nil, or_false] at hi
  case hostOperation =>
    rcases hi with rfl | rfl | rfl | rfl | rfl | rfl | rfl | rfl | rfl <;> exact whenHost_target hf hc _
  case channelOperation =>
    rcases hi with rfl | rfl | rfl | rfl | rfl <;> exact whenTarget_host hf hc _

/-! ## How a host turn ends (R183, R188) -/

@[simp] theorem collectWord_ctx (n k : Nat) (w : Word32) (s : State) : (collectWord n k w s).ctx = s.ctx := by
  unfold collectWord; split <;> rfl

/-- Settles O29: among the cases of a host step only a blocked `read_resp`, a `yield` and the idle step answer in the
target context, and each of the three does. -/
theorem hostSwitchesInThreeCases : Obligations.HostSwitchesInThreeCases := by
  intro s hs
  constructor
  · rintro ⟨t, hstep, ht⟩
    obtain ⟨-, hcase⟩ := step_cases hstep
    cases hcase with
    | blocked _ b k hi n hn ho hq => exact .inl ⟨b, k, n, hi, hn, ho, hq⟩
    | yielded _ hi => exact .inr (.inl hi)
    | idled _ hl => exact .inr (.inr hl)
    | turned hc => exact absurd (hs.1.symm.trans hc) (by decide)
    | collected hc _ _ _ n _ _ w q _ heq =>
      have : t.ctx = .host := by rw [heq, collectWord_ctx]; exact hc
      exact absurd (this.symm.trans ht) (by decide)
    | raised hc _ _ _ heq | issuedRead hc _ _ _ _ _ _ _ _ _ heq | issuedWrite hc _ _ _ _ _ _ _ _ _ _ heq
    | started hc _ heq | released hc _ heq =>
      subst heq
      exact absurd (hc.symm.trans ht) (by decide)
  · rintro (⟨b, k, n, hi, hn, ho, hq⟩ | hi | hl)
    · obtain ⟨rfl, h1, h2⟩ := checkLen_ok hn
      exact ⟨_, (step_line hs.1 hi).trans ((exec_readResp hs _ k).trans (readResult_empty h1 h2 ho hq)), rfl⟩
    · exact ⟨_, (step_line hs.1 hi).trans (exec_yield hs), rfl⟩
    · exact ⟨_, (step_end hs.1 hl).trans (exec_idle_end hs hl), rfl⟩

end Sys2Proof.Machine

namespace Sys2Proof.Machine

/-! ## A host step on an unbounded queue (R21, R84, R188) -/

theorem pushOut_answers {s : State} {ws : List Word32} {rest : State → Result} (hq : s.cfg.queueDepth = none)
    (h : ∃ t, rest { s with outQ := s.outQ ++ ws } = .next t) : ∃ t, pushOut ws s rest = .next t := by
  rwa [pushOut_room (roomFor_unbounded hq _)]

theorem encodeRead_answers {s : State} (hq : s.cfg.queueDepth = none) (a b : Nat) :
    ∃ t, encodeRead a b s = .next t := by
  unfold encodeRead
  split
  · exact ⟨_, rfl⟩
  · split
    · exact ⟨_, rfl⟩
    · exact pushOut_answers hq ⟨_, rfl⟩

theorem encodeWrite_answers {s : State} (hq : s.cfg.queueDepth = none) (a b : Nat) (p : List Word32) :
    ∃ t, encodeWrite a b p s = .next t := by
  unfold encodeWrite
  split
  · exact ⟨_, rfl⟩
  · split
    · exact ⟨_, rfl⟩
    · exact pushOut_answers hq ⟨_, rfl⟩

theorem readResult_answers (b k : Nat) (s : State) : ∃ t, readResult b k s = .next t := by
  unfold readResult
  split
  · exact ⟨_, rfl⟩
  · split
    · exact ⟨_, rfl⟩
    · split <;> exact ⟨_, rfl⟩

/-- A line of a well-formed program is a host operation of R84 (R87 expands `read` to two of them). -/
theorem isHostLine_of_line {s : State} {i : Instr} (hp : programWf s.prog = true) (hi : i ∈ programLines s) :
    i.isHostLine = true := by
  obtain ⟨j, hj, hi⟩ := List.mem_flatMap.1 hi
  have hj : j.isHostLine = true := List.all_eq_true.1 hp j hj
  cases j with
  | read a b k =>
    obtain rfl | rfl : i = .readReq a b ∨ i = .readResp b k := by simpa [expandLine] using hi
    · rfl
    · rfl
  | _ =>
    obtain rfl := List.mem_singleton.1 hi
    exact hj

/-- With an unbounded queue every host operation that is a line answers a next state: the only stop a host operation
has in its own context is the full queue (log 4). -/
theorem exec_line_answers {s : State} {i : Instr} (hs : s.HostReady) (hq : s.cfg.queueDepth = none)
    (hp : programWf s.prog = true) (hi : i ∈ programLines s) : ∃ t, exec i s = .next t := by
  have hline := isHostLine_of_line hp hi
  cases i with
  | readReq a b => exact exec_readReq hs a b ▸ encodeRead_answers hq a b
  | write a b p => exact exec_write hs a b p ▸ encodeWrite_answers hq a b p
  | writeChunk a b p => exact exec_writeChunk hs a b p ▸ encodeWrite_answers hq a b p
  | readResp b k => exact exec_readResp hs b k ▸ readResult_answers b k s
  | read a b k => exact absurd hi (read_not_line s a b k)
  | startProgram =>
    rw [exec, execStartProgram, whenHost_ready hs.1 hs.2]
    exact pushOut_answers hq ⟨_, rfl⟩
  | reset =>
    rw [exec, execReset, whenHost_ready hs.1 hs.2]
    exact pushOut_answers hq (pushOut_answers hq ⟨_, rfl⟩)
  | yield => exact ⟨_, exec_yield hs⟩
  | wireRead | wireWrite | readResponse | reservedHeader | offerOutboundWord | acceptInboundWord | channelStep
  | targetTurn | idle => cases hline

theorem step_host_answers {s : State} (hs : s.HostReady) (hq : s.cfg.queueDepth = none)
    (hp : programWf s.prog = true) : ∃ t, step s = .next t := by
  rcases Nat.lt_or_ge s.hpc (programLines s).length with hl | hl
  · rw [step_line hs.1 (List.getElem?_eq_getElem hl)]
    exact exec_line_answers hs hq hp (List.getElem_mem hl)
  · exact ⟨_, (step_end hs.1 hl).trans (exec_idle_end hs hl)⟩

/-! ## What a host turn has left to do (R188) -/

/-- The lines left to run and the words left to pop. -/
def State.hostWork (s : State) : Nat := (programLines s).length - s.hpc + s.inQ.length

theorem State.SameRun.programLines_eq {s t : State} (h : s.SameRun t) : programLines t = programLines s := by
  rw [programLines, programLines, h.2]

/-- The last word of a read moves the host on, and any other leaves the Inbound Queue: either way work is done. -/
theorem collectWord_hostWork {n k : Nat} {w : Word32} {q : List Word32} {s : State} (hq : s.inQ = w :: q) :
    (collectWord n k w { s with inQ := q }).hostWork < s.hostWork := by
  have hle : s.hpc ≤ (collectWord n k w { s with inQ := q }).hpc := by
    unfold collectWord
    split
    · exact Nat.le_succ _
    · exact le_refl _
  have hlen := congrArg List.length (collectWord_sameRun n k w { s with inQ := q }).programLines_eq
  change _ = (programLines s).length at hlen
  rw [State.hostWork, State.hostWork, hlen, collectWord_inQ, hq, List.length_cons]
  dsimp only
  omega

/-- A host step that neither gives the turn away nor faults does some of the work left. -/
theorem step_hostWork {s t : State} (hc : s.ctx = .host) (h : step s = .next t) :
    (t.ctx = .target ∨ t.fault ≠ none) ∨ (t.HostReady ∧ t.hostWork < s.hostWork) := by
  obtain ⟨hf, hcase⟩ := step_cases h
  have advanced : ∀ {i u}, (programLines s)[s.hpc]? = some i → programLines u = programLines s →
      u.hpc = s.hpc + 1 → u.inQ = s.inQ → u.hostWork < s.hostWork := by
    intro i u hi hlines hpc hin
    have := line_lt hi
    rw [State.hostWork, State.hostWork, hlines, hpc, hin]
    omega
  cases hcase with
  | raised _ _ _ e ht => exact .inl (.inr (by simp [ht]))
  | blocked _ _ _ _ _ _ _ _ ht | yielded _ _ ht | idled _ _ ht => exact .inl (.inl (by simp [ht]))
  | issuedRead _ _ hi _ _ _ _ _ _ _ ht | issuedWrite _ _ hi _ _ _ _ _ _ _ _ ht | started _ hi ht
  | released _ hi ht =>
    subst ht
    exact .inr ⟨⟨hc, hf⟩, advanced hi rfl rfl rfl⟩
  | collected _ b k hi n _ _ w q hq ht =>
    subst ht
    exact .inr
      ⟨⟨(collectWord_ctx ..).trans hc, (collectWord_fault ..).trans hf⟩, collectWord_hostWork hq⟩
  | turned htc => exact absurd (hc.symm.trans htc) (by decide)

/-- A host turn ends within one step more than its work left. -/
theorem hostTurn_ends {s : State} (hs : s.HostReady) (hq : s.cfg.queueDepth = none) (hp : programWf s.prog = true) :
    ∃ (k : Nat) (t : State), k ≤ s.hostWork + 1 ∧ core.run k s = .next t ∧ (t.ctx = .target ∨ t.fault ≠ none) := by
  induction hm : s.hostWork using Nat.strong_induction_on generalizing s with
  | _ m ih =>
    subst hm
    obtain ⟨t, hstep⟩ := step_host_answers hs hq hp
    obtain hend | ⟨ht, hlt⟩ := step_hostWork hs.1 hstep
    · exact ⟨1, t, Nat.le_add_left 1 _, (run_one s).trans hstep, hend⟩
    · obtain ⟨hcfg, hprog⟩ := exec_sameRun hstep
      obtain ⟨k, u, hk, hrun, hend⟩ := ih _ hlt ht (by rw [hcfg]; exact hq) (by rw [hprog]; exact hp) rfl
      exact ⟨k + 1, u, by omega, (run_succ_next hstep k).trans hrun, hend⟩

/-- Settles O31: the bound is one step more than the host's work. -/
theorem hostTurnIsFinite : Obligations.HostTurnIsFinite :=
  fun _ hs hq hp => hostTurn_ends hs hq hp

end Sys2Proof.Machine

namespace Sys2Proof.Machine

/-! ## A target turn by its draw (R166, R185) -/

/-- How many of some draws accept a word (R163). -/
def accepting (ds : List Draw) : Nat := (ds.filter (·.outReady)).length

@[simp] theorem accepting_append (ds es : List Draw) : accepting (ds ++ es) = accepting ds + accepting es := by
  simp [accepting]

@[simp] theorem arrivals_append (ds es : List Draw) : arrivals (ds ++ es) = arrivals ds ++ arrivals es := by
  simp [arrivals]

theorem arrivals_singleton (d : Draw) : arrivals [d] = if d.inValid then [d.inBits] else [] := by
  cases h : d.inValid <;> simp [arrivals, h]

theorem arrivals_singleton_length_le (d : Draw) : (arrivals [d]).length ≤ 1 := by
  rw [arrivals_singleton]
  split <;> simp

/-- From `s` to `t` the turns of the draws `ds` ran, and the host did nothing but collect words for the read it stands
on, or idle: the words that came are collected or queued in order, and the words that left are the front of `outQ`. -/
structure State.Turns (ds : List Draw) (s t : State) : Prop where
  same : s.SameRun t
  hpc : t.hpc = s.hpc
  outstanding : t.outstanding = s.outstanding
  results : t.results = s.results
  collaborator : t.collaborator = s.collaborator
  words : t.rdBuf ++ t.inQ = s.rdBuf ++ s.inQ ++ arrivals ds
  recvLog : t.recvLog = s.recvLog ++ arrivals ds
  wire : t.sentLog ++ t.outQ = s.sentLog ++ s.outQ
  outQ : t.outQ.length = s.outQ.length - accepting ds
  draws : t.draws = s.draws.drop ds.length

theorem State.Turns.refl (s : State) : s.Turns [] s :=
  ⟨.refl s, rfl, rfl, rfl, rfl, (List.append_nil _).symm, (List.append_nil _).symm, rfl, rfl, rfl⟩

theorem State.Turns.trans {ds es : List Draw} {s t u : State} (h : s.Turns ds t) (h' : t.Turns es u) :
    s.Turns (ds ++ es) u where
  same := h.same.trans h'.same
  hpc := h'.hpc.trans h.hpc
  outstanding := h'.outstanding.trans h.outstanding
  results := h'.results.trans h.results
  collaborator := h'.collaborator.trans h.collaborator
  words := by rw [h'.words, h.words, arrivals_append, List.append_assoc _ (arrivals ds)]
  recvLog := by rw [h'.recvLog, h.recvLog, arrivals_append, List.append_assoc]
  wire := h'.wire.trans h.wire
  outQ := by rw [h'.outQ, h.outQ, accepting_append, Nat.sub_sub]
  draws := by rw [h'.draws, h.draws, List.drop_drop, List.length_append]

/-- The words collected and queued after some turns, counted. -/
theorem State.Turns.words_length {ds : List Draw} {s t : State} (h : s.Turns ds t) :
    t.rdBuf.length + t.inQ.length = s.rdBuf.length + s.inQ.length + (arrivals ds).length := by
  simpa only [List.length_append] using congrArg List.length h.words

/-- Turns keep the books of the reads (R38). -/
theorem State.Turns.readsBalance {ds : List Draw} {s t : State} (h : s.Turns ds t) (hb : s.ReadsBalance) :
    t.ReadsBalance := by
  refine hb.same h.same.1 h.wire ?_
  rw [h.recvLog, h.outstanding, List.length_append]
  have := h.words_length
  omega

/-- Once the channel has accepted as many words as the Outbound Queue held, it has drained, in order (R193). -/
theorem State.Turns.drained {ds : List Draw} {s t : State} (h : s.Turns ds t) (hle : s.outQ.length ≤ accepting ds) :
    t.outQ = [] ∧ t.sentLog = s.sentLog ++ s.outQ := by
  have hnil : t.outQ = [] := List.eq_nil_of_length_eq_zero (by rw [h.outQ]; omega)
  exact ⟨hnil, by simpa only [hnil, List.append_nil] using h.wire⟩

/-- The turns of scripted draws use these up. -/
theorem State.Turns.draws_rest {ds rest : List Draw} {s t : State} (h : s.Turns ds t) (hd : s.draws = ds ++ rest) :
    t.draws = rest := by
  rw [h.draws, hd, List.drop_left]

/-- A step in the target context is one turn, and the host runs next, with its collected words as they were. -/
theorem step_turn {s : State} (h : s.TargetReady) :
    ∃ t, step s = .next t ∧ t.HostReady ∧ s.Turns [nextDraw s] t ∧ t.rdBuf = s.rdBuf := by
  refine ⟨_, step_target h, ?_⟩
  rw [channelStep_eq, ← arrivals_singleton]
  refine ⟨⟨rfl, h.2⟩,
    ⟨⟨rfl, rfl⟩, rfl, rfl, rfl, rfl, (List.append_assoc ..).symm, rfl, ?wire, ?outQ, ?draws⟩, rfl⟩
  case wire => cases (nextDraw s).outReady <;> cases s.outQ <;> simp
  case outQ => cases hr : (nextDraw s).outReady <;> simp [accepting, hr]
  case draws => simp

/-- Settles O30: a turn keeps the host's own fields, whoever draws for it. -/
theorem targetTurnReturnsToHost : Obligations.TargetTurnReturnsToHost := by
  intro s h
  obtain ⟨t, hstep, ht, hturn, hbuf⟩ := step_turn h
  exact ⟨t, hstep, ht, hturn.hpc, hturn.outstanding, hbuf, hturn.results, hturn.same.2, hturn.same.1⟩

/-! ## Rounds: the host gives its turn away and gets it back (R122, R186) -/

/-- After the last line a round is two steps, and the host is past the last line again (R186). -/
theorem idle_round {s : State} (hs : s.HostReady) (hl : (programLines s).length ≤ s.hpc) :
    ∃ t, core.run 2 s = .next t ∧ t.HostReady ∧ s.Turns [nextDraw s] t := by
  have hidle : step s = .next (switchTo .target s) := (step_end hs.1 hl).trans (exec_idle_end hs hl)
  obtain ⟨t, hstep, ht, hturn, -⟩ := step_turn (s := switchTo .target s) ⟨rfl, hs.2⟩
  have hhost : s.Turns [] (switchTo .target s) :=
    ⟨.refl s, rfl, rfl, rfl, rfl, (List.append_nil _).symm, (List.append_nil _).symm, rfl, rfl, rfl⟩
  exact ⟨t, (run_succ_next hidle 1).trans ((run_one _).trans hstep), ht, hhost.trans hturn⟩

/-- The host stands on the `read_resp` line of its outstanding read of `n` words, some of them still to be collected,
whoever stands behind the channel (R122). -/
structure State.OpenRead (n k : Nat) (s : State) : Prop where
  ready : s.HostReady
  line : s.OnLine (.readResp (4 * n) k)
  bound : n - 1 < s.cfg.lenBound
  out : s.outstanding = some n
  less : s.rdBuf.length < n

/-- With too few words at hand for the read, the host collects them and gives its turn away (R122). -/
theorem State.OpenRead.run_blocks {n k : Nat} {s : State} {ws : List Word32} (h : s.OpenRead n k) (hq : s.inQ = ws)
    (hn : s.rdBuf.length + ws.length < n) :
    core.run (ws.length + 1) s = .next { s with inQ := [], rdBuf := s.rdBuf ++ ws, ctx := .target } := by
  induction ws generalizing s with
  | nil =>
    obtain ⟨hyield, -⟩ := readRespMovesOneWord n k s h.ready (by omega) h.bound h.out
    calc core.run 1 s
        = .next { s with ctx := .target } := (run_one s).trans ((step_line h.ready.1 h.line).trans (hyield hq))
      _ = _ := by rw [List.append_nil, ← hq]
  | cons w ws ih =>
    rw [List.length_cons] at hn ⊢
    obtain ⟨-, hmore, -⟩ := readRespMovesOneWord n k s h.ready (by omega) h.bound h.out
    have hlen : (s.rdBuf ++ [w]).length = s.rdBuf.length + 1 := List.length_append
    have hopen : ({ s with inQ := ws, rdBuf := s.rdBuf ++ [w] } : State).OpenRead n k :=
      ⟨h.ready, h.line, h.bound, h.out, by rw [hlen]; omega⟩
    calc core.run (ws.length + 1 + 1) s
        = core.run (ws.length + 1) { s with inQ := ws, rdBuf := s.rdBuf ++ [w] } :=
          run_succ_next ((step_line h.ready.1 h.line).trans (hmore w ws hq (by omega))) _
      _ = _ := ih hopen rfl (by rw [hlen]; omega)
      _ = _ := by simp only [List.append_assoc, List.singleton_append]

/-- With too few words at hand a round collects them, takes one turn, and leaves the read open (R122). -/
theorem State.OpenRead.round {n k : Nat} {s : State} (h : s.OpenRead n k)
    (hn : s.rdBuf.length + s.inQ.length < n) :
    ∃ t, core.run (s.inQ.length + 2) s = .next t ∧ t.OpenRead n k ∧ s.Turns [nextDraw s] t ∧
      t.rdBuf = s.rdBuf ++ s.inQ ∧ t.inQ = arrivals [nextDraw s] := by
  have hblocks := h.run_blocks rfl hn
  obtain ⟨t, hstep, ht, hturn, hbuf⟩ :=
    step_turn (s := { s with inQ := [], rdBuf := s.rdBuf ++ s.inQ, ctx := .target }) ⟨rfl, h.ready.2⟩
  have hhost : s.Turns [] { s with inQ := [], rdBuf := s.rdBuf ++ s.inQ, ctx := .target } :=
    ⟨.refl s, rfl, rfl, rfl, rfl, rfl, (List.append_nil _).symm, rfl, rfl, rfl⟩
  have hround : s.Turns [nextDraw s] t := hhost.trans hturn
  have hbuf : t.rdBuf = s.rdBuf ++ s.inQ := hbuf
  have hopen : t.OpenRead n k :=
    ⟨ht, hround.same.onLine hround.hpc h.line, by rw [hround.same.1]; exact h.bound, hround.outstanding.trans h.out,
      by rwa [hbuf, List.length_append]⟩
  refine ⟨t, (run_add hblocks 1).trans ((run_one _).trans hstep), hopen, hround, hbuf, ?_⟩
  exact List.append_cancel_left (hbuf ▸ hround.words)

/-! ## The Outbound Queue drains (R193) -/

/-- Past the last line of the program, every scripted draw is one round (R186). -/
theorem idle_rounds (ds : List Draw) {rest : List Draw} {s : State} (hs : s.HostReady)
    (hl : (programLines s).length ≤ s.hpc) (hx : s.collaborator = .external) (hd : s.draws = ds ++ rest) :
    ∃ t, core.run (2 * ds.length) s = .next t ∧ t.HostReady ∧ s.Turns ds t := by
  induction ds generalizing s with
  | nil => exact ⟨s, rfl, hs, .refl s⟩
  | cons d ds ih =>
    obtain ⟨u, hrun, hu, hturn⟩ := idle_round hs hl
    rw [nextDraw_scripted hx hd] at hturn
    obtain ⟨t, hrun', ht, hturns⟩ :=
      ih hu (by rwa [hturn.same.programLines_eq, hturn.hpc]) (hturn.collaborator.trans hx) (hturn.draws_rest hd)
    refine ⟨t, ?_, ht, hturn.trans hturns⟩
    rw [List.length_cons, Nat.mul_succ, Nat.add_comm, run_add hrun, hrun']

/-- While the words of the scripted draws do not complete the read, every draw is one round, and every word that comes
is one step of its own (R122). -/
theorem State.OpenRead.rounds {n k : Nat} (ds : List Draw) {rest : List Draw} {s : State} (h : s.OpenRead n k)
    (hx : s.collaborator = .external) (hd : s.draws = ds ++ rest)
    (hn : s.rdBuf.length + s.inQ.length + (arrivals ds).length < n) :
    ∃ m t, m ≤ s.inQ.length + 3 * ds.length ∧ core.run m s = .next t ∧ t.OpenRead n k ∧ s.Turns ds t := by
  induction ds generalizing s with
  | nil => exact ⟨0, s, Nat.zero_le _, rfl, h, .refl s⟩
  | cons d ds ih =>
    rw [← List.singleton_append, arrivals_append, List.length_append] at hn
    obtain ⟨u, hrun, hu, hturn, -, hin⟩ := h.round (by omega)
    rw [nextDraw_scripted hx hd] at hturn hin
    have hcount := hturn.words_length
    have hone := hin ▸ arrivals_singleton_length_le d
    obtain ⟨m, t, hm, hrun', ht, hturns⟩ := ih hu (hturn.collaborator.trans hx) (hturn.draws_rest hd) (by omega)
    refine ⟨s.inQ.length + 2 + m, t, ?_, (run_add hrun m).trans hrun', ht, hturn.trans hturns⟩
    rw [List.length_cons]
    omega

/-- Settles O32: the rounds of the idle and of the blocked host, and `State.Turns.drained`. -/
theorem idleQueueDrains : Obligations.IdleQueueDrains := by
  intro ds rest s hs hx hd hout
  refine ⟨fun hidle => ?idle, fun n k hb ho hl hn => ?blocked⟩
  case idle =>
    obtain ⟨-, hend⟩ := hidle
    obtain ⟨t, hrun, ht, hturns⟩ := idle_rounds ds hs hend.ge hx hd
    obtain ⟨hnil, hsent⟩ := hturns.drained hout
    exact ⟨t, hrun, hnil, hsent, ⟨ht, by rw [hturns.hpc, hend, hturns.same.programLines_eq]⟩,
      hturns.draws_rest hd⟩
  case blocked =>
    obtain ⟨m, t, hm, hrun, ht, hturns⟩ :=
      State.OpenRead.rounds ds (k := k) ⟨hs, hl, hb, ho, by omega⟩ hx hd hn
    obtain ⟨hnil, hsent⟩ := hturns.drained hout
    exact ⟨m, t, hm, hrun, hnil, hsent, ht.ready, hturns.hpc, ht.out, hturns.results, hturns.draws_rest hd⟩

end Sys2Proof.Machine

namespace Sys2Proof.Machine

/-! ## An answered read completes (R124, R192) -/

/-- Once the words that came make up an open read's count, as many steps as words are still to be collected complete
it: `came` are the words that arrived since `s`, of which the read takes its missing ones and no other. -/
theorem State.OpenRead.completes {n k : Nat} {ds : List Draw} {s u : State} (hs : s.OpenRead n k)
    (hu : u.OpenRead n k) (h : s.Turns ds u) (hle : n ≤ u.rdBuf.length + u.inQ.length) :
    ∃ t, core.run (n - u.rdBuf.length) u = .next t ∧ t.HostReady ∧ t.hpc = s.hpc + 1 ∧ t.outstanding = none ∧
      t.rdBuf = [] ∧ resultOf t k = some (s.rdBuf ++ (s.inQ ++ arrivals ds).take (n - s.rdBuf.length)) ∧
      t.inQ = (s.inQ ++ arrivals ds).drop (n - s.rdBuf.length) ∧ t.recvLog = s.recvLog ++ arrivals ds ∧
      t.draws = s.draws.drop ds.length := by
  have hless := hs.less
  have hlessu := hu.less
  have hwords : u.rdBuf ++ u.inQ = s.rdBuf ++ (s.inQ ++ arrivals ds) := by rw [h.words, List.append_assoc]
  have htake : u.rdBuf ++ u.inQ.take (n - u.rdBuf.length) =
      s.rdBuf ++ (s.inQ ++ arrivals ds).take (n - s.rdBuf.length) := by
    simpa only [List.take_append, List.take_of_length_le hlessu.le, List.take_of_length_le hless.le]
      using congrArg (List.take n) hwords
  have hdrop : u.inQ.drop (n - u.rdBuf.length) = (s.inQ ++ arrivals ds).drop (n - s.rdBuf.length) := by
    simpa only [List.drop_append, List.drop_of_length_le hlessu.le, List.drop_of_length_le hless.le,
      List.nil_append] using congrArg (List.drop n) hwords
  have hp : u.PendingReadOk := by
    rw [State.PendingReadOk, hu.out]
    exact ⟨by omega, hlessu⟩
  have hrun := readRespDrainsExactlyItsWords n k u hu.ready hp hu.bound hu.out hu.line (by omega)
  refine ⟨_, hrun, hu.ready, congrArg (· + 1) h.hpc, rfl, rfl, ?_, hdrop, h.recvLog, h.draws⟩
  rw [← htake]
  exact Table.get_set_same k _ _

/-- If the words of the scripted draws are enough for an open read, some rounds bring what it misses: two steps a draw,
and one for each word collected on the way (R192). -/
theorem State.OpenRead.answered_by_draws {n k : Nat} (ds : List Draw) {s : State} (h : s.OpenRead n k)
    (hx : s.collaborator = .external) (hd : s.draws = ds)
    (hn : n ≤ s.rdBuf.length + s.inQ.length + (arrivals ds).length) :
    ∃ m j u, m + s.rdBuf.length ≤ u.rdBuf.length + 2 * ds.length ∧ core.run m s = .next u ∧ u.OpenRead n k ∧
      j ≤ ds.length ∧ s.Turns (ds.take j) u ∧ n ≤ u.rdBuf.length + u.inQ.length := by
  induction ds generalizing s with
  | nil => exact ⟨0, 0, s, by omega, rfl, h, le_refl 0, .refl s, hn⟩
  | cons d ds ih =>
    by_cases hle : n ≤ s.rdBuf.length + s.inQ.length
    · exact ⟨0, 0, s, by omega, rfl, h, Nat.zero_le _, .refl s, hle⟩
    · obtain ⟨v, hrun, hv, hturn, hbuf, -⟩ := h.round (by omega)
      rw [nextDraw_scripted hx hd] at hturn
      have hcount := hturn.words_length
      have hlen := congrArg List.length hbuf
      rw [← List.singleton_append, arrivals_append, List.length_append] at hn
      rw [List.length_append] at hlen
      obtain ⟨m, j, u, hm, hrun', hu, hj, hturns, hdone⟩ :=
        ih hv (hturn.collaborator.trans hx) (hturn.draws_rest (ds := [d]) hd) (by omega)
      refine ⟨s.inQ.length + 2 + m, j + 1, u, ?_, (run_add hrun m).trans hrun', hu, Nat.succ_le_succ hj,
        hturn.trans hturns, hdone⟩
      rw [List.length_cons]
      omega

/-! ## Whoever stands behind the channel (D24, R192) -/

/-- Along a run the log of received words only grows (R23). -/
theorem run_recvLog {m : Nat} {s t : State} (h : core.run m s = .next t) : s.recvLog <+: t.recvLog := by
  refine run_keeps (P := fun u => s.recvLog <+: u.recvLog) (fun u v hu hstep => hu.trans ?_)
    (List.prefix_refl _) h
  obtain ⟨hhost, htarget⟩ := eachContextMovesItsOwnWay u v hstep
  cases hc : u.ctx with
  | host =>
    obtain ⟨-, -, -, hrecv⟩ := hhost hc
    exact hrecv ▸ List.prefix_refl _
  | target =>
    obtain ⟨-, -, -, -, -, hrecv⟩ := htarget hc
    exact hrecv

theorem TargetProgress.of_run {m : Nat} {s u : State} (h : TargetProgress s) (hu : core.run m s = .next u) :
    TargetProgress u := by
  intro i t ht howes
  obtain ⟨j, hj⟩ := h (m + i) t ((run_add hu i).trans ht) howes
  refine ⟨j, ?_⟩
  rwa [Nat.add_assoc, run_add hu] at hj

/-- By the books, a read that misses words is owed some (R25, R38). -/
theorem State.OpenRead.owed {n k : Nat} {s : State} (h : s.OpenRead n k) (hb : s.ReadsBalance)
    (hn : s.rdBuf.length + s.inQ.length < n) : TargetOwes s := by
  obtain ⟨cmds, hissued, hbal⟩ := hb
  rw [h.out, Option.getD_some] at hbal
  exact ⟨cmds, hissued, by omega⟩

/-- A blocked read goes on for any number of steps without a word, unless one comes (R126). -/
theorem State.OpenRead.waits_or_arrives {n k : Nat} {s : State} (h : s.OpenRead n k)
    (hn : s.rdBuf.length + s.inQ.length < n) (r : Nat) :
    ∃ m ds u, core.run m s = .next u ∧ u.OpenRead n k ∧ s.Turns ds u ∧ (arrivals ds = [] → r ≤ m) := by
  induction r with
  | zero => exact ⟨0, [], s, rfl, h, .refl s, fun _ => le_refl 0⟩
  | succ r ih =>
    obtain ⟨m, ds, u, hrun, hu, hturns, hm⟩ := ih
    by_cases hno : arrivals ds = []
    · have hcount := hturns.words_length
      rw [hno, List.length_nil] at hcount
      obtain ⟨v, hrun', hv, hturn, -⟩ := hu.round (by omega)
      have := hm hno
      exact ⟨m + (u.inQ.length + 2), ds ++ [nextDraw u], v, (run_add hrun _).trans hrun', hv, hturns.trans hturn,
        fun _ => by omega⟩
    · exact ⟨m, ds, u, hrun, hu, hturns, fun h => absurd h hno⟩

/-- Under `TargetProgress` a word comes for a read that misses some: in the steps in which progress promises it, a
blocked read does nothing but wait (D24). -/
theorem State.OpenRead.word_arrives {n k : Nat} {s : State} (h : s.OpenRead n k) (hb : s.ReadsBalance)
    (hp : TargetProgress s) (hn : s.rdBuf.length + s.inQ.length < n) :
    ∃ m ds u, core.run m s = .next u ∧ u.OpenRead n k ∧ s.Turns ds u ∧ arrivals ds ≠ [] := by
  obtain ⟨j, hj⟩ := hp 0 s rfl (h.owed hb hn)
  rw [Nat.zero_add] at hj
  obtain ⟨m, ds, u, hrun, hu, hturns, hm⟩ := h.waits_or_arrives hn j
  refine ⟨m, ds, u, hrun, hu, hturns, fun hno => ?_⟩
  obtain ⟨i, rfl⟩ := Nat.exists_eq_add_of_le (hm hno)
  obtain ⟨v, hv, hvu⟩ := run_prefix hrun
  obtain ⟨w, hw, hgrown⟩ | hstops := hj
  · cases hv.symm.trans hw
    have hlog : u.recvLog = s.recvLog := by rw [hturns.recvLog, hno, List.append_nil]
    have hle := (run_recvLog hvu).length_le
    rw [hlog] at hle
    omega
  · exact hstops v hv

/-- Under `TargetProgress` all words that an open read misses come: each word leaves one fewer missing (R192). -/
theorem State.OpenRead.answered_by_progress {n k : Nat} (missing : Nat) {s : State} (h : s.OpenRead n k)
    (hb : s.ReadsBalance) (hp : TargetProgress s) (hn : n ≤ s.rdBuf.length + s.inQ.length + missing) :
    ∃ m ds u, core.run m s = .next u ∧ u.OpenRead n k ∧ s.Turns ds u ∧ n ≤ u.rdBuf.length + u.inQ.length := by
  induction missing generalizing s with
  | zero => exact ⟨0, [], s, rfl, h, .refl s, hn⟩
  | succ missing ih =>
    by_cases hle : n ≤ s.rdBuf.length + s.inQ.length
    · exact ⟨0, [], s, rfl, h, .refl s, hle⟩
    · obtain ⟨m, ds, u, hrun, hu, hturns, hcame⟩ := h.word_arrives hb hp (by omega)
      have hcount := hturns.words_length
      have hpos := List.length_pos_iff.2 hcame
      obtain ⟨i, es, t, hrun', ht, hturns', hdone⟩ :=
        ih hu (hturns.readsBalance hb) (hp.of_run hrun) (by omega)
      exact ⟨m + i, ds ++ es, t, (run_add hrun i).trans hrun', ht, hturns.trans hturns', hdone⟩

/-- Settles O17: the missing words come by the rounds of the draws or by `TargetProgress`, and the read completes with
exactly these. -/
theorem answeredReadCompletes : Obligations.AnsweredReadCompletes := by
  intro n k s hs hpend hb ho hl
  obtain ⟨-, hless⟩ : 1 ≤ n ∧ s.rdBuf.length < n := by simpa only [State.PendingReadOk, ho] using hpend
  have hopen : s.OpenRead n k := ⟨hs, hl, hb, ho, hless⟩
  refine ⟨fun hx hn => ?draws, fun hbal hp => ?progress⟩
  case draws =>
    obtain ⟨m, j, u, hm, hrun, hu, hj, hturns, hdone⟩ := hopen.answered_by_draws s.draws hx rfl hn
    obtain ⟨t, hrun', ht, hpc, hout, hbuf, hres, hin, -, hdraws⟩ := hopen.completes hu hturns hdone
    have hlessu := hu.less
    refine ⟨m + (n - u.rdBuf.length), j, t, by omega, (run_add hrun _).trans hrun', ht, hpc, hout, hbuf, ?_, hin,
      by rwa [List.length_take_of_le hj] at hdraws⟩
    have hcount := hturns.words_length
    have hall : s.inQ ++ arrivals s.draws =
        s.inQ ++ arrivals (s.draws.take j) ++ arrivals (s.draws.drop j) := by
      rw [List.append_assoc, ← arrivals_append, List.take_append_drop]
    rw [hres, hall, List.take_append_of_le_length (l₁ := s.inQ ++ arrivals (s.draws.take j))]
    rw [List.length_append]
    omega
  case progress =>
    obtain ⟨m, ds, u, hrun, hu, hturns, hdone⟩ := hopen.answered_by_progress n hbal hp (by omega)
    obtain ⟨t, hrun', ht, hpc, hout, hbuf, hres, hin, hrecv, -⟩ := hopen.completes hu hturns hdone
    have hcount := hturns.words_length
    refine ⟨m + (n - u.rdBuf.length), arrivals ds, _, t, (run_add hrun _).trans hrun', ht, hpc, hout, hbuf, hres, ?_,
      hrecv, by rw [hin, List.take_append_drop]⟩
    rw [List.length_append, List.length_take, List.length_append]
    omega

end Sys2Proof.Machine

namespace Sys2Proof.Machine

/-! ## The stream parser inverts the encoder (R241 to R243) -/

/-- What one word completes comes before what the rest of the stream completes (R242). -/
theorem parseFrom_cons {c : Params} {ph mid last : Phase} {w : Word32} {ws : List Word32} {done : Option Command}
    {cmds : List Command} (hw : parseWord c ph w = .ok (mid, done)) (hws : parseFrom c mid ws = .ok (cmds, last)) :
    parseFrom c ph (w :: ws) = .ok (done.toList ++ cmds, last) := by
  rw [parseFrom, hw]
  dsimp only
  rw [hws]

theorem parseFrom_singleton {c : Params} {ph mid : Phase} {w : Word32} {done : Option Command}
    (hw : parseWord c ph w = .ok (mid, done)) : parseFrom c ph [w] = .ok (done.toList, mid) := by
  rw [parseFrom_cons hw rfl, List.append_nil]

theorem parseFrom_cons_ok {c : Params} {ph last : Phase} {w : Word32} {ws : List Word32} {cmds : List Command}
    (h : parseFrom c ph (w :: ws) = .ok (cmds, last)) :
    ∃ mid done rest, parseWord c ph w = .ok (mid, done) ∧ parseFrom c mid ws = .ok (rest, last) ∧
      cmds = done.toList ++ rest := by
  rw [parseFrom] at h
  split at h
  · cases h
  · rename_i mid done hw
    split at h
    · cases h
    · rename_i rest _ hws
      cases h
      exact ⟨mid, done, rest, hw, hws, rfl⟩

/-- A stream parsed in two parts (R242). -/
theorem parseFrom_append_of_ok {c : Params} {ph mid last : Phase} {xs ys : List Word32} {done more : List Command}
    (hx : parseFrom c ph xs = .ok (done, mid)) (hy : parseFrom c mid ys = .ok (more, last)) :
    parseFrom c ph (xs ++ ys) = .ok (done ++ more, last) := by
  rw [parseFrom_append, hx]
  dsimp only
  rw [hy]

/-- Every beginning of a stream that parses does (R242). -/
theorem parseFrom_append_ok {c : Params} {ph last : Phase} {xs ys : List Word32} {cmds : List Command}
    (h : parseFrom c ph (xs ++ ys) = .ok (cmds, last)) :
    ∃ done mid more, parseFrom c ph xs = .ok (done, mid) ∧ parseFrom c mid ys = .ok (more, last) ∧
      cmds = done ++ more := by
  rw [parseFrom_append] at h
  split at h
  · cases h
  · rename_i done mid hx
    split at h
    · cases h
    · rename_i more _ hy
      cases h
      exact ⟨done, mid, more, hx, hy, rfl⟩

/-- The chunks of a value are read one by one, whichever of the two fields they belong to: `ph` is the field's phase,
and `fin` what its last chunk leads to (R242). -/
theorem parseFrom_field {c : Params} {K : Nat} {ph : Nat → Nat → Phase} {fin : Nat → Phase × Option Command}
    (hmore : ∀ k acc (w : Word32), k + 1 < K →
      parseWord c (ph k acc) w = .ok (ph (k + 1) (acc + w.toNat * 2 ^ (32 * k)), none))
    (hlast : ∀ k acc (w : Word32), k + 1 = K →
      parseWord c (ph k acc) w = .ok (fin (acc + w.toNat * 2 ^ (32 * k))))
    {k acc : Nat} {ws : List Word32} (hlen : k + ws.length = K) (hk : k < K) :
    parseFrom c (ph k acc) ws =
      .ok ((fin (acc + unchunk ws * 2 ^ (32 * k))).2.toList, (fin (acc + unchunk ws * 2 ^ (32 * k))).1) := by
  induction ws generalizing k acc with
  | nil => exact absurd hlen hk.ne
  | cons w ws ih =>
    rw [List.length_cons] at hlen
    by_cases hend : k + 1 = K
    · obtain rfl : ws = [] := List.eq_nil_of_length_eq_zero (by omega)
      have hvalue : unchunk [w] = w.toNat := by simp [unchunk]
      rw [hvalue, parseFrom_singleton (hlast k acc w hend)]
    · have hvalue : acc + unchunk (w :: ws) * 2 ^ (32 * k) =
          acc + w.toNat * 2 ^ (32 * k) + unchunk ws * 2 ^ (32 * (k + 1)) := by
        rw [unchunk, ← wordBase_mul_two_pow]
        ring
      rw [hvalue]
      exact parseFrom_cons (hmore k acc w (by omega)) (ih (by omega) (by omega))

/-- The address chunks lead to the length field, with the address they make (R242). -/
theorem parseFrom_addr {c : Params} (kd : CommandKind) {ws : List Word32} (hlen : ws.length = c.addrChunks)
    (hc : 1 ≤ c.addrChunks) : parseFrom c (.addr kd 0 0) ws = .ok ([], .len kd (unchunk ws) 0 0) := by
  have h := parseFrom_field (c := c) (ph := .addr kd) (fin := fun v => (.len kd v 0 0, none)) (K := c.addrChunks)
    (fun k acc w hk => by simp [parseWord, hk]) (fun k acc w hk => by simp [parseWord, hk])
    (k := 0) (acc := 0) (ws := ws) (by omega) hc
  simpa using h

/-- The length chunks of a READ complete it (R242). -/
theorem parseFrom_len_read {c : Params} (a : Nat) {ws : List Word32} (hlen : ws.length = c.lenChunks)
    (hc : 1 ≤ c.lenChunks) :
    parseFrom c (.len .read a 0 0) ws = .ok ([.read a (unchunk ws + 1)], .hdr) := by
  have h := parseFrom_field (c := c) (ph := .len .read a) (fin := fun v => (.hdr, some (.read a (v + 1))))
    (K := c.lenChunks) (fun k acc w hk => by simp [parseWord, hk]) (fun k acc w hk => by simp [parseWord, hk])
    (k := 0) (acc := 0) (ws := ws) (by omega) hc
  simpa using h

/-- The length chunks of a WRITE lead to its payload (R242). -/
theorem parseFrom_len_write {c : Params} (a : Nat) {ws : List Word32} (hlen : ws.length = c.lenChunks)
    (hc : 1 ≤ c.lenChunks) :
    parseFrom c (.len .write a 0 0) ws = .ok ([], .pay a (unchunk ws + 1) 0 []) := by
  have h := parseFrom_field (c := c) (ph := .len .write a) (fin := fun v => (.pay a (v + 1) 0 [], none))
    (K := c.lenChunks) (fun k acc w hk => by simp [parseWord, hk]) (fun k acc w hk => by simp [parseWord, hk])
    (k := 0) (acc := 0) (ws := ws) (by omega) hc
  simpa using h

/-- The missing payload words complete a WRITE (R242). -/
theorem parseFrom_pay {c : Params} (a : Nat) {n k : Nat} {got ws : List Word32} (hlen : k + ws.length = n)
    (hk : k < n) : parseFrom c (.pay a n k got) ws = .ok ([.write a n (got ++ ws)], .hdr) := by
  induction ws generalizing k got with
  | nil => exact absurd hlen hk.ne
  | cons w ws ih =>
    rw [List.length_cons] at hlen
    by_cases hmore : k + 1 < n
    · have hw : parseWord c (.pay a n k got) w = .ok (.pay a n (k + 1) (got ++ [w]), none) := by
        simp [parseWord, hmore]
      rw [parseFrom_cons hw (ih (by omega) hmore), List.append_assoc]
      rfl
    · obtain rfl : ws = [] := List.eq_nil_of_length_eq_zero (by omega)
      have hw : parseWord c (.pay a n k got) w = .ok (.hdr, some (.write a n (got ++ [w]))) := by
        simp [parseWord, hmore]
      exact parseFrom_singleton hw

/-- The words of a well-formed command complete it, and the parser expects a header again (R243). -/
theorem parseFrom_encCommand {c : Params} {x : Command} (hc : c.wf = true) (hx : commandWf c x = true) :
    parseFrom c .hdr (encCommand c x) = .ok ([x], .hdr) := by
  obtain ⟨hop, hA, hL, -⟩ := Params.wf_iff.1 hc
  cases x with
  | read a n =>
    obtain ⟨ha, h1, h2⟩ := commandWf_read.1 hx
    have hhead : parseWord c .hdr c.opRead = .ok (.addr .read 0 0, none) := by simp [parseWord]
    have haddr := parseFrom_addr .read (chunks_length c.addrChunks a) hA
    have hlen := parseFrom_len_read a (chunks_length c.lenChunks (n - 1)) hL
    rw [unchunk_chunks ha] at haddr
    rw [unchunk_chunks (show n - 1 < c.lenBound by omega), Nat.sub_add_cancel h1] at hlen
    exact parseFrom_cons hhead (parseFrom_append_of_ok haddr hlen)
  | write a n p =>
    obtain ⟨ha, h1, h2, hp⟩ := commandWf_write.1 hx
    have hhead : parseWord c .hdr c.opWrite = .ok (.addr .write 0 0, none) := by simp [parseWord, Ne.symm hop]
    have haddr := parseFrom_addr .write (chunks_length c.addrChunks a) hA
    have hlen := parseFrom_len_write a (chunks_length c.lenChunks (n - 1)) hL
    have hpay : parseFrom c (.pay a n 0 []) p = .ok ([.write a n p], .hdr) := parseFrom_pay a (by omega) h1
    rw [unchunk_chunks ha] at haddr
    rw [unchunk_chunks (show n - 1 < c.lenBound by omega), Nat.sub_add_cancel h1] at hlen
    exact parseFrom_cons hhead (parseFrom_append_of_ok (parseFrom_append_of_ok haddr hlen) hpay)

/-- The words of well-formed commands complete exactly these, in order (R243). -/
theorem parseStream_encoded {c : Params} (hc : c.wf = true) {cmds : List Command}
    (h : ∀ x ∈ cmds, commandWf c x = true) : parseStream c (cmds.flatMap (encCommand c)) = .ok (cmds, .hdr) := by
  induction cmds with
  | nil => rfl
  | cons x cmds ih =>
    obtain ⟨hx, hcmds⟩ := List.forall_mem_cons.1 h
    exact parseFrom_append_of_ok (parseFrom_encCommand hc hx) (ih hcmds)

/-- The parser comes to expect a header only by completing a command (R242). -/
theorem parseWord_to_hdr {c : Params} {ph : Phase} {w : Word32} {done : Option Command}
    (h : parseWord c ph w = .ok (.hdr, done)) : done ≠ none := by
  rintro rfl
  cases ph with
  | hdr =>
    simp only [parseWord] at h
    split at h
    · cases h
    · split at h <;> cases h
  | addr kd k acc =>
    simp only [parseWord] at h
    split at h <;> cases h
  | len kd a k acc =>
    simp only [parseWord] at h
    split at h
    · cases h
    · cases kd <;> cases h
  | pay a n k ws =>
    simp only [parseWord] at h
    split at h <;> cases h

/-- A stream with words in it that ends where a header is expected completes a command. -/
theorem parseFrom_to_hdr {c : Params} {ph : Phase} {ws : List Word32} {cmds : List Command}
    (h : parseFrom c ph ws = .ok (cmds, .hdr)) (hne : ws ≠ []) : cmds ≠ [] := by
  induction ws generalizing ph cmds with
  | nil => exact absurd rfl hne
  | cons w ws ih =>
    obtain ⟨mid, done, rest, hw, hws, rfl⟩ := parseFrom_cons_ok h
    intro hnil
    obtain ⟨hdone, hrest⟩ := List.append_eq_nil_iff.1 hnil
    by_cases hend : ws = []
    · subst hend
      cases hws
      exact parseWord_to_hdr hw (Option.toList_eq_nil_iff.1 hdone)
    · exact ih hws hend hrest

/-- Settles O49: the first clause command by command. For the second, the rest of the command ends where a header is
expected, so it is in the rest that the one command is completed. -/
theorem parserInvertsEncoder : Obligations.ParserInvertsEncoder := by
  refine fun c hc => ⟨fun cmds h => parseStream_encoded hc h, ?_⟩
  rintro x ws hx ⟨rest, hrest⟩ hproper
  have hwhole := parseFrom_encCommand hc hx
  rw [← hrest] at hwhole
  obtain ⟨done, ph, more, hws, hmore, hcmds⟩ := parseFrom_append_ok hwhole
  have hne : rest ≠ [] := by
    rintro rfl
    exact hproper (by rw [← hrest, List.append_nil])
  obtain rfl : done = [] := by
    obtain ⟨hnil, -⟩ | ⟨-, hnil⟩ := List.append_eq_singleton_iff.1 hcmds.symm
    · exact hnil
    · exact absurd hnil (parseFrom_to_hdr hmore hne)
  refine ⟨ph, hws, ?_, ?_⟩
  · rintro rfl
    by_contra hwords
    exact parseFrom_to_hdr hws hwords rfl
  · rintro rfl
    cases hws
    rfl

end Sys2Proof.Machine

namespace Sys2Proof.Machine

/-! ## The commands issued, along a step (R64, R79) -/

/-- Every step issues whole well-formed commands, or none. -/
theorem State.Issued.step {s t : State} {cmds : List Command} (h : s.Issued cmds) (hw : s.cfg.wf = true)
    (hstep : step s = .next t) : ∃ more, t.Issued (cmds ++ more) := by
  obtain ⟨-, -, -, hstart, hfirst, hsecond⟩ := Params.wf_iff.1 hw
  have hcfg : t.cfg = s.cfg := (exec_sameRun hstep).1
  have hwire : ∀ more : List Command, (∀ x ∈ more, commandWf s.cfg x = true) →
      t.sentLog ++ t.outQ = s.sentLog ++ s.outQ ++ more.flatMap (encCommand s.cfg) →
      ∃ more, t.Issued (cmds ++ more) := fun more hmore hq => ⟨more, h.push hcfg hmore hq⟩
  obtain ⟨-, hcase⟩ := step_cases hstep
  cases hcase with
  | raised _ _ _ _ ht | blocked _ _ _ _ _ _ _ _ ht | yielded _ _ ht | idled _ _ ht
  | collected _ _ _ _ _ _ _ _ _ _ ht =>
    exact hwire [] (by simp) (by simp [ht])
  | issuedRead _ _ _ a n _ ha hn hl _ ht =>
    refine hwire [.read a n] (List.forall_mem_singleton.2 (commandWf_read.2 ⟨ha, hn, by omega⟩)) ?_
    simp [ht, encCommand]
  | issuedWrite _ _ _ a n p _ ha hn hl hp ht =>
    refine hwire [.write a n p] (List.forall_mem_singleton.2 (commandWf_write.2 ⟨ha, hn, by omega, hp⟩)) ?_
    simp [ht, encCommand]
  | started _ _ ht =>
    refine hwire [.write s.cfg.startAddr 1 [1]] (List.forall_mem_singleton.2 (poke_wf 1 hstart)) ?_
    simp [ht, encCommand]
  | released _ _ ht =>
    refine hwire [.write s.cfg.resetFirst 1 [0], .write s.cfg.resetSecond 1 [0]]
      (List.forall_mem_cons.2 ⟨poke_wf 0 hfirst, List.forall_mem_singleton.2 (poke_wf 0 hsecond)⟩) ?_
    simp [ht, encCommand]
  | turned hc _ _ _ _ _ =>
    refine hwire [] (by simp) ?_
    rw [step_outbound hstep, pushedIn_target hc, List.flatMap_nil]

/-- A host step leaves the collaborator and the reference target's record as they are (R235). -/
theorem step_host_target {s t : State} (h : step s = .next t) (hc : s.ctx = .host) :
    t.collaborator = s.collaborator ∧ t.target = s.target := by
  obtain ⟨-, hcase⟩ := step_cases h
  cases hcase with
  | collected _ _ k _ n _ _ w q _ ht =>
    subst ht
    unfold collectWord
    split <;> exact ⟨rfl, rfl⟩
  | turned htc => exact absurd (hc.symm.trans htc) (by decide)
  | raised _ _ _ _ ht | issuedRead _ _ _ _ _ _ _ _ _ _ ht | issuedWrite _ _ _ _ _ _ _ _ _ _ _ ht
  | started _ _ ht | released _ _ ht | blocked _ _ _ _ _ _ _ _ ht | yielded _ _ ht | idled _ _ ht =>
    subst ht
    exact ⟨rfl, rfl⟩

/-! ## The reference target's turn (R246, R247) -/

/-- A running reference target accepts a word and offers its oldest response word, if it has one (R246). -/
theorem nextDraw_running {s : State} (hx : s.collaborator = .reference) (ht : s.target.tfault = none) :
    nextDraw s = ⟨true, !s.target.tx.isEmpty, s.target.tx.headD 0⟩ := by
  simp [nextDraw, hx, refDraw, ht]

/-- A stopped reference target neither accepts nor offers a word (R246, R250). -/
theorem nextDraw_stopped {s : State} (hx : s.collaborator = .reference) (ht : s.target.tfault ≠ none) :
    nextDraw s = ⟨false, false, s.target.tx.headD 0⟩ := by
  obtain ⟨e, he⟩ := Option.ne_none_iff_exists'.1 ht
  simp [nextDraw, hx, refDraw, he]

/-- Receiving a word that the parser takes: the parser moves on, and the command it completes, if any, is answered
(R247 to R249). -/
theorem refReceive_of_parseWord {c : Params} {w : Word32} {t : RefTarget} {ph : Phase} {done : Option Command}
    (h : parseWord c t.phase w = .ok (ph, done)) :
    refReceive c w t =
      { mem := (honestAnswers c done.toList t.mem).2
        phase := ph
        tx := t.tx ++ (honestAnswers c done.toList t.mem).1
        tfault := t.tfault } := by
  rw [refReceive, h]
  rcases done with _ | ⟨a, n⟩ | ⟨a, n, p⟩
  · simp [honestAnswers]
  · simp [honestAnswers, refExecute, refLoad]
  · simp [honestAnswers, refExecute, refStore]

/-- The reference target after a turn with the draw of R246 in which the words `sent`, at most one, reached it: its
oldest response word left (R247). -/
def refTurned (c : Params) (sent : List Word32) (t : RefTarget) : RefTarget :=
  sent.foldl (fun t w => refReceive c w t) { t with tx := t.tx.tail }

theorem refTurned_nil (c : Params) (t : RefTarget) : refTurned c [] t = { t with tx := t.tx.tail } := rfl

theorem refTurned_of_parseWord {c : Params} {w : Word32} {t : RefTarget} {ph : Phase} {done : Option Command}
    (h : parseWord c t.phase w = .ok (ph, done)) :
    refTurned c [w] t =
      { mem := (honestAnswers c done.toList t.mem).2
        phase := ph
        tx := t.tx.tail ++ (honestAnswers c done.toList t.mem).1
        tfault := t.tfault } :=
  refReceive_of_parseWord (t := { t with tx := t.tx.tail }) h

theorem refAfterTurn_eq_refTurned (c : Params) (sent : Option Word32) (t : RefTarget) :
    refAfterTurn c (!t.tx.isEmpty) sent t = refTurned c sent.toList t := by
  have htail : (if (!t.tx.isEmpty) = true then { t with tx := t.tx.tail } else t) = { t with tx := t.tx.tail } := by
    rcases t with ⟨_, _, _ | ⟨w, tx⟩, _⟩ <;> rfl
  cases sent with
  | none => exact htail
  | some w => exact congrArg (refReceive c w) htail

/-- A turn with a running reference target: the oldest word goes out and the oldest response word comes in (R246,
R247). -/
theorem step_running {s : State} (h : s.TargetReady) (hx : s.collaborator = .reference)
    (ht : s.target.tfault = none) :
    step s = .next
      { s with
        ctx := .host
        outQ := s.outQ.tail
        sentLog := s.sentLog ++ s.outQ.head?.toList
        inQ := s.inQ ++ s.target.tx.head?.toList
        recvLog := s.recvLog ++ s.target.tx.head?.toList
        draws := s.draws.tail
        turns := s.turns + 1
        target := refTurned s.cfg s.outQ.head?.toList s.target } := by
  have hin : (if (!s.target.tx.isEmpty) = true then [s.target.tx.headD 0] else []) = s.target.tx.head?.toList := by
    cases s.target.tx <;> rfl
  rw [step_target h, nextDraw_running hx ht, channelStep_eq, ← refAfterTurn_eq_refTurned, ← hin]
  simp only [endTurn, switchTo, hx, outBits, if_true]

/-! ## A step with the wire in step (R243, R250, R251) -/

/-- From `s` to `t` the reference target received the last words of the commands `more`, and of no others: its parser
moved on by them, and they are answered in wire order, each word sent or waiting (R247 to R249). -/
structure State.Serves (more : List Command) (s t : State) : Prop where
  collaborator : t.collaborator = .reference
  tfault : t.target.tfault = none
  parse : ∀ {done}, parseStream s.cfg s.sentLog = .ok (done, s.target.phase) →
    parseStream s.cfg t.sentLog = .ok (done ++ more, t.target.phase)
  mem : t.target.mem = (honestAnswers s.cfg more s.target.mem).2
  words : t.recvLog ++ t.target.tx = s.recvLog ++ s.target.tx ++ (honestAnswers s.cfg more s.target.mem).1

/-- One word more than a stream that parses (R242). -/
theorem parseStream_concat {c : Params} {ph mid : Phase} {w : Word32} {ws : List Word32} {cmds : List Command}
    {done : Option Command} (h : parseStream c ws = .ok (cmds, ph)) (hw : parseWord c ph w = .ok (mid, done)) :
    parseStream c (ws ++ [w]) = .ok (cmds ++ done.toList, mid) :=
  parseFrom_append_of_ok h (parseFrom_singleton hw)

/-- While the wire is whole commands the parser takes the next word that is to be sent (R82, R243). -/
theorem State.WireInStep.parseWord_ok {s : State} {w : Word32} {q : List Word32} (h : s.WireInStep)
    (hq : s.outQ = w :: q) : ∃ ph done, parseWord s.cfg s.target.phase w = .ok (ph, done) := by
  obtain ⟨hw, -, -, ⟨cmds, hwf, hwire⟩, done, hparse⟩ := h
  have hall : parseStream s.cfg (s.sentLog ++ w :: q) = .ok (cmds, .hdr) := by
    rw [← hq, hwire]
    exact parseStream_encoded hw hwf
  obtain ⟨_, mid, _, hsent, hrest, -⟩ := parseFrom_append_ok hall
  cases hparse.symm.trans hsent
  obtain ⟨ph, d, _, hword, -⟩ := parseFrom_cons_ok hrest
  exact ⟨ph, d, hword⟩

/-- Whatever step is taken, the reference target serves the commands it completes. -/
theorem State.WireInStep.serves {s t : State} (h : s.WireInStep) (hstep : step s = .next t) :
    ∃ more, s.Serves more t := by
  have ⟨_, hx, htf, _, _⟩ := h
  cases hc : s.ctx with
  | host =>
    obtain ⟨-, hsent, hrecv⟩ := step_host_inbound hstep hc
    obtain ⟨hx', ht⟩ := step_host_target hstep hc
    refine ⟨[], hx'.trans hx, ht ▸ htf, fun hd => ?_, by rw [ht, honestAnswers], ?_⟩
    · rw [hsent, ht, List.append_nil, hd]
    · rw [hrecv, ht, honestAnswers, List.append_nil]
  | target =>
    obtain ⟨hf, -⟩ := step_cases hstep
    cases (step_running ⟨hc, hf⟩ hx htf).symm.trans hstep
    have hmoved : s.target.tx.head?.toList ++ s.target.tx.tail = s.target.tx := by
      cases s.target.tx <;> rfl
    cases hq : s.outQ with
    | nil =>
      refine ⟨[], hx, htf, fun hd => ?_, rfl, ?_⟩
      · simpa [refTurned_nil] using hd
      · simp [refTurned_nil, honestAnswers, hmoved]
    | cons w q =>
      obtain ⟨ph, done, hword⟩ := h.parseWord_ok hq
      have hturned := refTurned_of_parseWord hword
      refine ⟨done.toList, hx, ?_, fun hd => ?_, ?_, ?_⟩
      · simp [hturned, htf]
      · simpa [hturned] using parseStream_concat hd hword
      · simp [hturned]
      · simp only [List.head?_cons, Option.toList_some, hturned, List.append_assoc]
        rw [← List.append_assoc _ s.target.tx.tail, hmoved]

/-- Settles O58: a step issues whole commands, and the parser moves on by those the target has received. -/
theorem wireStaysInStep : Obligations.WireStaysInStep := by
  intro s t h hstep
  have ⟨hw, _, _, ⟨_, hissued⟩, _, hparse⟩ := h
  obtain ⟨_, hissued'⟩ := hissued.step hw hstep
  obtain ⟨_, hserves⟩ := h.serves hstep
  have hcfg : t.cfg = s.cfg := (exec_sameRun hstep).1
  exact ⟨hcfg ▸ hw, hserves.collaborator, hserves.tfault, ⟨_, hissued'⟩, _, hcfg ▸ hserves.parse hparse⟩

/-- Settles O59: the commands a step lets the target receive are answered on the memory that those before them left. -/
theorem echoStaysInStep : Obligations.EchoStaysInStep := by
  rintro m0 s t hwire ⟨-, -, done, hparse, hanswers⟩ hstep
  obtain ⟨more, hserves⟩ := hwire.serves hstep
  have hcfg : t.cfg = s.cfg := (exec_sameRun hstep).1
  refine ⟨hserves.collaborator, hserves.tfault, done ++ more, hcfg ▸ hserves.parse hparse, ?_⟩
  rw [hcfg, honestAnswers_append, hanswers, hserves.words, hserves.mem]

end Sys2Proof.Machine

namespace Sys2Proof.Machine

/-! ## The reference target's memory under a transfer (R248, R249) -/

/-- In the target context the READ row is its execution at the reference target (R249, log 9). -/
theorem exec_wireRead_reference {s : State} (h : s.TargetReady) (hx : s.collaborator = .reference) (a n : Nat) :
    exec (.wireRead a n) s = .next { s with target := refLoad s.cfg a n s.target } := by
  rw [exec_wireRead, byContext_target h.1 h.2, atReference_reference hx]

/-- In the target context the WRITE row is its execution at the reference target (R248, log 9). -/
theorem exec_wireWrite_reference {s : State} (h : s.TargetReady) (hx : s.collaborator = .reference) (a n : Nat)
    (p : List Word32) :
    exec (.wireWrite a n p) s = .next { s with target := refStore s.cfg a p s.target } := by
  rw [exec_wireWrite, byContext_target h.1 h.2, atReference_reference hx]

/-- The words loaded are those at the addresses of the transfer, in order (R249). -/
theorem loadWords_eq_map (c : Params) (a : Nat) (m : Memory) (k n : Nat) :
    loadWords c a m k n = (List.range' k n).map fun j => Memory.read m (wordAddr c a j) := by
  induction n generalizing k with
  | zero => rfl
  | succ n ih => rw [loadWords, ih, List.range'_succ, List.map_cons]

/-- Settles O52: the row loads at the reference target, and what it loads is `loadWords_eq_map`. -/
theorem targetReadAnswers : Obligations.TargetReadAnswers := by
  intro a n s h hx
  rw [exec_wireRead_reference h hx, refLoad, loadWords_eq_map, ← List.range_eq_range']
  rfl

/-- A word stored changes what its own address reads, and no other (R248). -/
theorem Memory.read_write (a : Nat) (w : Word32) {m : Memory} (h : Memory.wf m) :
    Memory.read (Memory.write m a w) = Function.update (Memory.read m) a w := by
  funext b
  by_cases hb : b = a
  · rw [hb, Memory.read_write_same a w h, Function.update_self]
  · rw [Memory.read_write_other hb, Function.update_of_ne hb]

/-- The words of a transfer are stored one after the other (R248). -/
theorem Memory.read_storeWords (c : Params) (a k : Nat) (ws : List Word32) {m : Memory} (h : Memory.wf m) :
    Memory.read (storeWords c a k ws m) =
      (ws.zipIdx k).foldl (fun cells e => Function.update cells (wordAddr c a e.2) e.1) (Memory.read m) := by
  induction ws generalizing k m with
  | nil => rfl
  | cons w ws ih =>
    rw [storeWords, ih (k + 1) (Memory.wf_write _ _ h), Memory.read_write _ _ h, List.zipIdx_cons, List.foldl_cons]

/-- Settles O53: the row stores at the reference target, and the memory it leaves reads as `Memory.read_storeWords`
says. -/
theorem targetWriteStores : Obligations.TargetWriteStores :=
  fun a n p s h hx hm _ => ⟨storeWords s.cfg a 0 p s.target.mem, exec_wireWrite_reference h hx a n p,
    storeWords_wf s.cfg a 0 p hm, Memory.read_storeWords s.cfg a 0 p hm⟩

/-! ## A transfer that does not come round to its own addresses (log 24) -/

/-- Two words of a transfer that lie less than `2^(32·A)` bytes apart lie at different addresses. -/
theorem wordAddr_ne {c : Params} {j k : Nat} (a : Nat) (hlt : j < k) (hk : 4 * (k - j) < c.addrBound) :
    wordAddr c a j ≠ wordAddr c a k := by
  intro h
  obtain ⟨d, rfl⟩ := Nat.exists_eq_add_of_lt hlt
  have hmod : a + 4 * j + 0 ≡ a + 4 * j + 4 * (d + 1) [MOD c.addrBound] := by
    rw [Nat.add_zero, show a + 4 * j + 4 * (d + 1) = a + 4 * (j + d + 1) by ring]
    exact h
  have hzero : 0 % c.addrBound = 4 * (d + 1) % c.addrBound := Nat.ModEq.add_left_cancel' _ hmod
  rw [Nat.zero_mod, Nat.mod_eq_of_lt (by omega)] at hzero
  omega

/-- The words of a transfer from word `k` on leave every word before as it is, while they do not come round to it. -/
theorem read_storeWords_before {c : Params} (a : Nat) {j k : Nat} {ws : List Word32} (m : Memory) (hlt : j < k)
    (hfit : 4 * (k + ws.length - j) ≤ c.addrBound) :
    Memory.read (storeWords c a k ws m) (wordAddr c a j) = Memory.read m (wordAddr c a j) := by
  induction ws generalizing k m with
  | nil => rfl
  | cons w ws ih =>
    rw [List.length_cons] at hfit
    rw [storeWords, ih _ (by omega) (by omega), Memory.read_write_other (wordAddr_ne a hlt (by omega))]

/-- What a transfer stored is loaded back (R248, R249). -/
theorem loadWords_storeWords {c : Params} (a k : Nat) {ws : List Word32} {m : Memory} (h : Memory.wf m)
    (hfit : 4 * ws.length ≤ c.addrBound) : loadWords c a (storeWords c a k ws m) k ws.length = ws := by
  induction ws generalizing k m with
  | nil => rfl
  | cons w ws ih =>
    rw [List.length_cons] at hfit
    have hm := Memory.wf_write (wordAddr c a k) w h
    have hhead : Memory.read (storeWords c a (k + 1) ws (Memory.write m (wordAddr c a k) w)) (wordAddr c a k) = w := by
      rw [read_storeWords_before a _ (Nat.lt_succ_self k) (by omega), Memory.read_write_same _ _ h]
    rw [storeWords, List.length_cons, loadWords, hhead, ih (k + 1) hm (by omega)]

/-- Settles O54: the WRITE stores the payload, and the READ after it loads it back. -/
theorem targetEchoesAPayload : Obligations.TargetEchoesAPayload := by
  rintro a n p s h hx hm rfl hfit
  have hready : ({ s with target := refStore s.cfg a p s.target } : State).TargetReady := h
  refine ⟨_, _, exec_wireWrite_reference h hx a p.length p, exec_wireRead_reference hready hx a p.length, ?_⟩
  exact congrArg (s.target.tx ++ ·) (loadWords_storeWords a 0 hm hfit)

/-! ## The reference target's draws (R246, R250) -/

/-- In the target context a step is the turn of the next draw (R185, R187). -/
theorem step_eq_targetTurn {s : State} (hc : s.ctx = .target) {d : Draw} (hd : nextDraw s = d) :
    step s = exec (.targetTurn d.outReady d.inValid d.inBits) s := by
  rw [step, fetch_target hc, hd]

/-- A turn with a stopped reference target only gives control back to the host (R250). -/
theorem step_stopped {s : State} (h : s.TargetReady) (hx : s.collaborator = .reference)
    (ht : s.target.tfault ≠ none) :
    step s = .next { s with ctx := .host, draws := s.draws.tail, turns := s.turns + 1 } := by
  rw [step_target h, nextDraw_stopped hx ht, channelStep_eq]
  simp [endTurn, switchTo, hx, refAfterTurn]

/-- Settles O57: the two draws of a running target, by whether it has a word to send, and the turn of a stopped one. -/
theorem referenceTargetDraws : Obligations.ReferenceTargetDraws := by
  intro s h hx
  refine ⟨fun w ws hf htx => ?offers, fun hf htx => ?nothingToOffer, fun hf => ?stopped⟩
  case offers => exact step_eq_targetTurn (d := ⟨true, true, w⟩) h.1 (by simp [nextDraw_running hx hf, htx])
  case nothingToOffer =>
    exact step_eq_targetTurn (d := ⟨true, false, 0⟩) h.1 (by simp [nextDraw_running hx hf, htx])
  case stopped => exact ⟨_, step_stopped h hx hf, rfl, rfl, rfl, rfl, rfl⟩

end Sys2Proof.Machine

namespace Sys2Proof.Machine

/-! ## A run stops, or a target turn comes (R183, R187, R188) -/

/-- The run from `s` comes to a state without a next state. -/
def State.Stops (s : State) : Prop := ∃ j, ∀ u : State, core.run j s ≠ .next u

theorem State.Stops.of_run {m : Nat} {s u : State} (h : u.Stops) (hu : core.run m s = .next u) : s.Stops := by
  obtain ⟨j, hj⟩ := h
  exact ⟨m + j, fun v => run_add hu j ▸ hj v⟩

theorem stops_or_steps (s : State) : s.Stops ∨ ∃ t, step s = .next t := by
  by_cases h : ∃ t, step s = .next t
  · exact .inr h
  · exact .inl ⟨1, fun t ht => h ⟨t, (run_one s).symm.trans ht⟩⟩

/-- A faulted state has no step (R211). -/
theorem stops_of_fault {s : State} (h : s.fault ≠ none) : s.Stops :=
  (stops_or_steps s).resolve_right fun ⟨_, ht⟩ => h (step_cases ht).1

/-- Whatever the program and the queue depth are, the host gives its turn away in the end, unless the run stops: each
of its steps does some of the work it has left. -/
theorem stops_or_turn_comes (s : State) : s.Stops ∨ ∃ j t, core.run j s = .next t ∧ t.TargetReady := by
  induction hm : s.hostWork using Nat.strong_induction_on generalizing s with
  | _ m ih =>
    subst hm
    by_cases hf : s.fault = none
    · cases hc : s.ctx with
      | target => exact .inr ⟨0, s, rfl, hc, hf⟩
      | host =>
        obtain hstop | ⟨t, hstep⟩ := stops_or_steps s
        · exact .inl hstop
        · have hrun : core.run 1 s = .next t := (run_one s).trans hstep
          have hend : t.Stops ∨ ∃ j u, core.run j t = .next u ∧ u.TargetReady := by
            by_cases hft : t.fault = none
            · obtain (hct | hft') | ⟨-, hlt⟩ := step_hostWork hc hstep
              · exact .inr ⟨0, t, rfl, hct, hft⟩
              · exact absurd hft hft'
              · exact ih _ hlt t rfl
            · exact .inl (stops_of_fault hft)
          obtain hstop | ⟨j, u, hj, hu⟩ := hend
          · exact .inl (hstop.of_run hrun)
          · exact .inr ⟨1 + j, u, (run_add hrun j).trans hj, hu⟩
    · exact .inl (stops_of_fault hf)

/-! ## The reference target makes progress (R251, D24) -/

/-- The run from `s` stops, or a word comes in it. -/
def State.Delivers (s : State) : Prop :=
  s.Stops ∨ ∃ j u, core.run j s = .next u ∧ s.recvLog.length < u.recvLog.length

theorem State.Delivers.of_run {m : Nat} {s u : State} (h : u.Delivers) (hu : core.run m s = .next u) :
    s.Delivers := by
  obtain hstop | ⟨j, v, hv, hlt⟩ := h
  · exact .inl (hstop.of_run hu)
  · exact .inr ⟨m + j, v, (run_add hu j).trans hv, Nat.lt_of_le_of_lt (run_recvLog hu).length_le hlt⟩

/-- Wire and reference target are in step, and the commands `cmds` are the first that were issued (R250, R251). -/
structure State.InStep (m0 : Memory) (cmds : List Command) (s : State) : Prop where
  wire : s.WireInStep
  echo : s.EchoInStep m0
  issued : ∃ more, s.Issued (cmds ++ more)

theorem State.InStep.step {m0 : Memory} {cmds : List Command} {s t : State} (h : s.InStep m0 cmds)
    (hstep : step s = .next t) : t.InStep m0 cmds := by
  obtain ⟨more, hissued⟩ := h.issued
  obtain ⟨more', hissued'⟩ := hissued.step h.wire.1 hstep
  exact ⟨wireStaysInStep s t h.wire hstep, echoStaysInStep m0 s t h.wire h.echo hstep, more ++ more',
    by rwa [← List.append_assoc]⟩

theorem State.InStep.run {m0 : Memory} {cmds : List Command} {k : Nat} {s t : State} (h : s.InStep m0 cmds)
    (hrun : core.run k s = .next t) : t.InStep m0 cmds :=
  run_keeps (fun _ _ hs hstep => hs.step hstep) h hrun

/-- How many words of the commands `cmds`, the first on the wire, are still to be sent. -/
def State.unsent (cmds : List Command) (s : State) : Nat :=
  (cmds.flatMap (encCommand s.cfg)).length - s.sentLog.length

theorem step_unsent_le {s t : State} (h : step s = .next t) (cmds : List Command) :
    t.unsent cmds ≤ s.unsent cmds := by
  have hlog : s.sentLog.length ≤ t.sentLog.length := by
    cases hc : s.ctx with
    | host =>
      obtain ⟨-, hsent, -⟩ := step_host_inbound h hc
      rw [hsent]
    | target =>
      obtain ⟨_, -, -, -, -, hsent, -, -⟩ := step_target_moves h hc
      rw [hsent, List.length_append]
      exact Nat.le_add_right _ _
  rw [State.unsent, State.unsent, (exec_sameRun h).1]
  exact Nat.sub_le_sub_left hlog _

theorem run_unsent_le {k : Nat} {s t : State} (h : core.run k s = .next t) (cmds : List Command) :
    t.unsent cmds ≤ s.unsent cmds :=
  run_keeps (P := fun u => u.unsent cmds ≤ s.unsent cmds)
    (fun _ _ hu hstep => (step_unsent_le hstep cmds).trans hu) (le_refl _) h

/-- Once commands are sent in full, all the words their READs ask for have come or wait to be sent (R247, R249). -/
theorem State.InStep.answered {m0 : Memory} {cmds : List Command} {s : State} (h : s.InStep m0 cmds)
    (hsent : s.unsent cmds = 0) : demanded cmds ≤ s.recvLog.length + s.target.tx.length := by
  obtain ⟨hw, -⟩ := h.wire
  obtain ⟨-, -, done, hparse, hanswers⟩ := h.echo
  obtain ⟨more, hwf, hwire⟩ := h.issued
  have hlen : (honestAnswers s.cfg done m0).1.length = s.recvLog.length + s.target.tx.length := by
    rw [hanswers, List.length_append]
  obtain ⟨rest, hrest⟩ : cmds.flatMap (encCommand s.cfg) <+: s.sentLog := by
    refine List.prefix_of_prefix_length_le (l₃ := s.sentLog ++ s.outQ) ?_ (List.prefix_append _ _)
      (Nat.sub_eq_zero_iff_le.1 hsent)
    rw [hwire, List.flatMap_append]
    exact List.prefix_append _ _
  obtain ⟨first, _, later, hfirst, -, rfl⟩ := parseFrom_append_ok (hrest.symm ▸ hparse)
  have hcmds := parseStream_encoded hw fun x hx => hwf x (List.mem_append_left _ hx)
  cases hcmds.symm.trans hfirst
  rw [← hlen, honestAnswers_length, demanded_append]
  exact Nat.le_add_right _ _

/-- A turn brings a word, or it sends one of the commands whose words are owed (R246). -/
theorem State.InStep.turn {m0 : Memory} {cmds : List Command} {s : State} (h : s.InStep m0 cmds)
    (hs : s.TargetReady) (howed : s.recvLog.length < demanded cmds) :
    ∃ t, Machine.step s = .next t ∧
      (s.recvLog.length < t.recvLog.length ∨ t.recvLog = s.recvLog ∧ t.unsent cmds < s.unsent cmds) := by
  obtain ⟨-, hx, htf, -⟩ := h.wire
  refine ⟨_, step_running hs hx htf, ?_⟩
  cases htx : s.target.tx with
  | cons w tx => exact .inl (by simp)
  | nil =>
    refine .inr ⟨by simp, ?_⟩
    have hleft : s.unsent cmds ≠ 0 := by
      intro hsent
      have := h.answered hsent
      rw [htx, List.length_nil] at this
      omega
    obtain ⟨more, -, hwire⟩ := h.issued
    have hlen := congrArg List.length hwire
    rw [List.flatMap_append, List.length_append, List.length_append] at hlen
    rw [State.unsent] at hleft
    cases hq : s.outQ with
    | nil =>
      rw [hq, List.length_nil] at hlen
      omega
    | cons w q =>
      simp only [State.unsent, List.head?_cons, Option.toList_some, List.length_append, List.length_singleton]
      omega

/-- Owed words come, unless the run stops: every turn that brings none sends one of the words still to be sent. -/
theorem State.InStep.delivers {m0 : Memory} {cmds : List Command} {s : State} (h : s.InStep m0 cmds)
    (howed : s.recvLog.length < demanded cmds) : s.Delivers := by
  induction hm : s.unsent cmds using Nat.strong_induction_on generalizing s with
  | _ m ih =>
    subst hm
    obtain hstop | ⟨j, t, hrun, ht⟩ := stops_or_turn_comes s
    · exact .inl hstop
    · have hin := h.run hrun
      have hle := run_unsent_le hrun cmds
      by_cases hcame : s.recvLog.length < t.recvLog.length
      · exact .inr ⟨j, t, hrun, hcame⟩
      · obtain ⟨u, hstep, hcame' | ⟨hsame, hlt⟩⟩ := hin.turn ht (by omega)
        · exact .of_run (.inr ⟨1, u, (run_one t).trans hstep, hcame'⟩) hrun
        · have hdelivers : u.Delivers := ih _ (by omega) (hin.step hstep) (by rw [hsame]; omega) rfl
          exact (hdelivers.of_run ((run_one t).trans hstep)).of_run hrun

/-- A state with the reference target in step is honest: what it received is a beginning of the answers (D22, R251). -/
theorem State.EchoInStep.honest {m0 : Memory} {s : State} (h : s.EchoInStep m0) : TargetHonestAt m0 s := by
  obtain ⟨-, -, done, hparse, hanswers⟩ := h
  exact ⟨done, _, hparse, by rw [hanswers]; exact List.prefix_append _ _⟩

/-- Settles O60: at power-on nothing is sent, so wire and target are in step, and they stay so. -/
theorem referenceTargetIsHonest : Obligations.ReferenceTargetIsHonest := by
  intro c prog m0 hc s
  have hwire : s.WireInStep := ⟨hc, rfl, rfl, ⟨[], fun _ h => absurd h List.not_mem_nil, rfl⟩, [], rfl⟩
  have hecho : s.EchoInStep m0 := ⟨rfl, rfl, [], rfl, rfl⟩
  have hin : s.InStep m0 [] := ⟨hwire, hecho, [], fun _ h => absurd h List.not_mem_nil, rfl⟩
  refine ⟨fun k t ht => (hin.run ht).echo.honest, fun k t ht ⟨cmds, hissued, howed⟩ => ?_⟩
  have hint : t.InStep m0 cmds := ⟨(hin.run ht).wire, (hin.run ht).echo, [], by rwa [List.append_nil]⟩
  obtain ⟨j, hj⟩ | ⟨j, u, hu, hlt⟩ := hint.delivers howed
  · exact ⟨j, .inr fun u => run_add ht j ▸ hj u⟩
  · exact ⟨j, .inl ⟨u, (run_add ht j).trans hu, hlt⟩⟩

end Sys2Proof.Machine

namespace Sys2Proof.Machine

/-! ## A faulted state has no step (R187, R211, R212) -/

theorem whenHost_faulted {s : State} {c : FaultCode} (hf : s.fault = some c) (act : Result) :
    whenHost s act = .fault (.halted c) := by simp [whenHost, hf]

theorem whenTarget_faulted {s : State} {c : FaultCode} (hf : s.fault = some c) (act : Result) :
    whenTarget s act = .fault (.halted c) := by simp [whenTarget, hf]

theorem byContext_faulted {s : State} {c : FaultCode} (hf : s.fault = some c) (x y : Result) :
    byContext s x y = .fault (.halted c) := by simp [byContext, hf]

/-- Every instruction stands under one of the three guards, and each of them stops in a faulted state. -/
theorem exec_faulted {s : State} {c : FaultCode} (hf : s.fault = some c) (i : Instr) :
    exec i s = .fault (.halted c) := by
  cases i with
  | wireRead | wireWrite | reservedHeader => exact byContext_faulted hf _ _
  | readReq | write | writeChunk | readResp | read | startProgram | reset | yield | idle =>
    exact whenHost_faulted hf _
  | readResponse | offerOutboundWord | acceptInboundWord | channelStep | targetTurn =>
    exact whenTarget_faulted hf _

/-- A state that some instruction leaves has no fault (R212). -/
theorem fault_none_of_exec_next {i : Instr} {s t : State} (h : exec i s = .next t) : s.fault = none := by
  cases hf : s.fault with
  | none => rfl
  | some c => cases (exec_faulted hf i).symm.trans h

/-- Settles O33: a step is `exec` of what is fetched, and `exec_faulted` holds of every instruction. -/
theorem faultedStateHasNoStep : Obligations.FaultedStateHasNoStep :=
  fun i _ s hf => ⟨exec_faulted hf i, exec_faulted hf (fetch s)⟩

/-! ## What the operand checks raise (R201 to R204, R209) -/

theorem checkLen_odd {b : Nat} (h : b % 4 ≠ 0) (c : Params) : checkLen c b = .error .badByteCount := if_pos h

theorem checkLen_zero (c : Params) : checkLen c 0 = .error .zeroLength := rfl

/-- No length is truncated: a count past the length field is turned away (R204). -/
theorem checkLen_overlong {c : Params} {n : Nat} (h : c.lenBound ≤ n - 1) :
    checkLen c (4 * n) = .error .lengthOverflow := by
  have hpos := lenBound_pos c
  have hwhole : 4 * n % wordBytes = 0 := Nat.mul_mod_right 4 n
  have hsome : 4 * n ≠ 0 := by omega
  rw [checkLen, if_neg (not_not.2 hwhole), if_neg hsome, mul_wordBytes_div, if_pos h]

theorem checkTransfer_wide {c : Params} {a : Nat} (h : c.addrBound ≤ a) (b : Nat) :
    checkTransfer c a b = .error .addressRange := if_pos h

/-- For an address in range the byte count decides (R209). -/
theorem checkTransfer_narrow {c : Params} {a : Nat} (h : a < c.addrBound) (b : Nat) :
    checkTransfer c a b = checkLen c b := if_neg (not_le.2 h)

theorem checkLen_error {c : Params} {b : Nat} {e : FaultCode} (h : checkLen c b = .error e) :
    e = .badByteCount ∨ e = .zeroLength ∨ e = .lengthOverflow := by
  unfold checkLen at h
  split at h
  · cases h
    exact .inl rfl
  · split at h
    · cases h
      exact .inr (.inl rfl)
    · split at h
      · cases h
        exact .inr (.inr rfl)
      · cases h

theorem checkLen_error_ne {c : Params} {b : Nat} {e : FaultCode} (h : checkLen c b = .error e) :
    e ≠ .illegalCommand := by
  obtain rfl | rfl | rfl := checkLen_error h <;> decide

theorem checkTransfer_error_ne {c : Params} {a b : Nat} {e : FaultCode} (h : checkTransfer c a b = .error e) :
    e ≠ .illegalCommand := by
  obtain ha | ha := Nat.lt_or_ge a c.addrBound
  · rw [checkTransfer_narrow ha] at h
    exact checkLen_error_ne h
  · rw [checkTransfer_wide ha] at h
    cases h
    decide

/-! ## What the shared operations raise (R205 to R207, R210) -/

/-- The state after a step that raised `e`: nothing but the fault field is written (R210). -/
def State.faultedBy (e : FaultCode) (s : State) : State := { s with fault := some e }

theorem encodeRead_check_error {a b : Nat} {e : FaultCode} {s : State} (h : checkTransfer s.cfg a b = .error e) :
    encodeRead a b s = .next (s.faultedBy e) := by
  rw [encodeRead, h]
  rfl

theorem encodeWrite_check_error {a b : Nat} {p : List Word32} {e : FaultCode} {s : State}
    (h : checkTransfer s.cfg a b = .error e) : encodeWrite a b p s = .next (s.faultedBy e) := by
  rw [encodeWrite, h]
  rfl

theorem readResult_check_error {b k : Nat} {e : FaultCode} {s : State} (h : checkLen s.cfg b = .error e) :
    readResult b k s = .next (s.faultedBy e) := by
  rw [readResult, h]
  rfl

theorem encodeRead_overlap {a n : Nat} {s : State} (ha : a < s.cfg.addrBound) (h1 : 1 ≤ n)
    (h2 : n - 1 < s.cfg.lenBound) (ho : s.outstanding ≠ none) :
    encodeRead a (4 * n) s = .next (s.faultedBy .readOverlap) := by
  rw [encodeRead, checkTransfer_words ha h1 h2]
  exact if_pos ho

theorem encodeWrite_mismatch {a n : Nat} {p : List Word32} {s : State} (ha : a < s.cfg.addrBound) (h1 : 1 ≤ n)
    (h2 : n - 1 < s.cfg.lenBound) (hp : p.length ≠ n) :
    encodeWrite a (4 * n) p s = .next (s.faultedBy .payloadMismatch) := by
  rw [encodeWrite, checkTransfer_words ha h1 h2]
  exact if_pos hp

theorem readResult_mismatch {n k : Nat} {s : State} (h1 : 1 ≤ n) (h2 : n - 1 < s.cfg.lenBound)
    (ho : s.outstanding ≠ some n) : readResult (4 * n) k s = .next (s.faultedBy .readMismatch) := by
  rw [readResult, checkLen_words h1 h2]
  exact if_pos ho

/-! ## A step raises a fault alone, or leaves the fault field as it was (R208, R210) -/

/-- `t` is `s` with one of the block's own faults raised and nothing else written (R208, R210). -/
def State.Raises (s t : State) : Prop := ∃ e, e ≠ .illegalCommand ∧ t = s.faultedBy e

theorem encodeRead_raises_or {a b : Nat} {s t : State} (h : encodeRead a b s = .next t) :
    s.Raises t ∨ t.fault = s.fault := by
  cases hcheck : checkTransfer s.cfg a b with
  | error e =>
    cases (encodeRead_check_error hcheck).symm.trans h
    exact .inl ⟨e, checkTransfer_error_ne hcheck, rfl⟩
  | ok n =>
    obtain ⟨ha, rfl, h1, h2⟩ := checkTransfer_ok hcheck
    by_cases ho : s.outstanding = none
    · cases hr : roomFor s s.cfg.headWords with
      | true =>
        cases (encodeRead_issues ha h1 h2 ho hr).symm.trans h
        exact .inr rfl
      | false => cases (encodeRead_full ha h1 h2 ho hr).symm.trans h
    · cases (encodeRead_overlap ha h1 h2 ho).symm.trans h
      exact .inl ⟨.readOverlap, by decide, rfl⟩

theorem encodeWrite_raises_or {a b : Nat} {p : List Word32} {s t : State} (h : encodeWrite a b p s = .next t) :
    s.Raises t ∨ t.fault = s.fault := by
  cases hcheck : checkTransfer s.cfg a b with
  | error e =>
    cases (encodeWrite_check_error hcheck).symm.trans h
    exact .inl ⟨e, checkTransfer_error_ne hcheck, rfl⟩
  | ok n =>
    obtain ⟨ha, rfl, h1, h2⟩ := checkTransfer_ok hcheck
    by_cases hp : p.length = n
    · cases hr : roomFor s (s.cfg.headWords + n) with
      | true =>
        cases (encodeWrite_issues ha h1 h2 hp hr).symm.trans h
        exact .inr rfl
      | false => cases (encodeWrite_full ha h1 h2 hp hr).symm.trans h
    · cases (encodeWrite_mismatch ha h1 h2 hp).symm.trans h
      exact .inl ⟨.payloadMismatch, by decide, rfl⟩

/-- `read_resp` of the outstanding read raises nothing, and as long as it stays on its line the read stays outstanding
(R122, R123). -/
theorem readResult_of_outstanding {n k : Nat} {s t : State} (h1 : 1 ≤ n) (h2 : n - 1 < s.cfg.lenBound)
    (ho : s.outstanding = some n) (h : readResult (4 * n) k s = .next t) :
    t.fault = s.fault ∧ (t.hpc = s.hpc → t.outstanding = some n) := by
  cases hq : s.inQ with
  | nil =>
    cases (readResult_empty h1 h2 ho hq).symm.trans h
    exact ⟨rfl, fun _ => ho⟩
  | cons w q =>
    cases (readResult_cons h1 h2 ho hq).symm.trans h
    refine ⟨collectWord_fault n k w _, fun hpc => ?_⟩
    by_cases hlast : s.rdBuf.length + 1 = n
    · rw [collectWord_last (s := { s with inQ := q }) hlast] at hpc
      exact absurd hpc (Nat.succ_ne_self _)
    · rw [collectWord_more (s := { s with inQ := q }) hlast]
      exact ho

theorem readResult_raises_or {b k : Nat} {s t : State} (h : readResult b k s = .next t) :
    s.Raises t ∨ t.fault = s.fault := by
  cases hcheck : checkLen s.cfg b with
  | error e =>
    cases (readResult_check_error hcheck).symm.trans h
    exact .inl ⟨e, checkLen_error_ne hcheck, rfl⟩
  | ok n =>
    obtain ⟨rfl, h1, h2⟩ := checkLen_ok hcheck
    by_cases ho : s.outstanding = some n
    · exact .inr (readResult_of_outstanding h1 h2 ho h).1
    · cases (readResult_mismatch h1 h2 ho).symm.trans h
      exact .inl ⟨.readMismatch, by decide, rfl⟩

/-- A drain of the outstanding read raises nothing: it leaves its line with the word that ends the read (R123, R128). -/
theorem drainRead_fault {n k fuel : Nat} {s t : State} (h1 : 1 ≤ n) (h2 : n - 1 < s.cfg.lenBound)
    (ho : s.outstanding = some n) (h : drainRead (4 * n) k fuel s = .next t) : t.fault = s.fault := by
  induction fuel generalizing s with
  | zero =>
    cases h
    rfl
  | succ fuel ih =>
    obtain ⟨u, hu, -⟩ := drainRead_succ_next h
    obtain ⟨hfault, hout⟩ := readResult_of_outstanding h1 h2 ho hu
    by_cases hgo : u.HostReady ∧ u.hpc = s.hpc
    · rw [drainRead_continue hu hgo] at h
      have hcfg : u.cfg = s.cfg := (readResult_sameRun hu).1
      exact (ih (hcfg ▸ h2) (hout hgo.2) h).trans hfault
    · cases (drainRead_stop hu hgo fuel).symm.trans h
      exact hfault

/-- The first line of `read` is the only one to raise a fault: its second drains the read just issued (R87, R128). -/
theorem execRead_raises_or {a b k : Nat} {s t : State} (h : execRead a b k s = .next t) :
    s.Raises t ∨ t.fault = s.fault := by
  obtain ⟨-, -, u, hu, ⟨-, rfl⟩ | ⟨hf, hdrain⟩⟩ := execRead_next h
  · exact encodeRead_raises_or hu
  · obtain ⟨e, rfl⟩ | ⟨n, hn, -, rfl⟩ := encodeRead_next hu
    · cases hf
    · obtain ⟨-, rfl, h1, h2⟩ := checkTransfer_ok hn
      exact .inr (drainRead_fault (s := s.issueRead a n) h1 h2 rfl hdrain)

theorem atReference_fault {s t : State} {why : Refusal} {act : RefTarget → RefTarget}
    (h : atReference s why act = .next t) : t.fault = s.fault := by
  obtain ⟨-, rfl⟩ := atReference_next h
  rfl

@[simp] theorem channelStep_fault (r v : Bool) (w : Word32) (s : State) :
    (channelStep r v w s).fault = s.fault := by
  rw [channelStep_eq]

/-- Whatever an instruction answers, it raised one of the block's faults alone, from the host context, or the fault
field is as it was. -/
theorem exec_raises_or {i : Instr} {s t : State} (h : exec i s = .next t) :
    s.ctx = .host ∧ s.Raises t ∨ t.fault = s.fault := by
  cases i with
  | wireRead a n =>
    obtain ⟨-, ⟨hc, h⟩ | ⟨-, h⟩⟩ := byContext_next h
    · exact (encodeRead_raises_or h).imp_left (.intro hc)
    · exact .inr (atReference_fault h)
  | wireWrite a n p =>
    obtain ⟨-, ⟨hc, h⟩ | ⟨-, h⟩⟩ := byContext_next h
    · exact (encodeWrite_raises_or h).imp_left (.intro hc)
    · exact .inr (atReference_fault h)
  | reservedHeader w =>
    obtain ⟨-, ⟨-, h⟩ | ⟨-, h⟩⟩ := byContext_next h
    · cases h
    · exact .inr (atReference_fault h)
  | readReq a b =>
    obtain ⟨hc, -, h⟩ := whenHost_next h
    exact (encodeRead_raises_or h).imp_left (.intro hc)
  | write a b p | writeChunk a b p =>
    obtain ⟨hc, -, h⟩ := whenHost_next h
    exact (encodeWrite_raises_or h).imp_left (.intro hc)
  | readResp b k =>
    obtain ⟨hc, -, h⟩ := whenHost_next h
    exact (readResult_raises_or h).imp_left (.intro hc)
  | read a b k => exact (execRead_raises_or h).imp_left (.intro (execRead_next h).1)
  | startProgram =>
    obtain ⟨-, -, rfl⟩ := execStartProgram_next h
    exact .inr rfl
  | reset =>
    obtain ⟨-, -, rfl⟩ := execReset_next h
    exact .inr rfl
  | yield =>
    obtain ⟨-, -, h⟩ := whenHost_next h
    cases h
    exact .inr rfl
  | idle =>
    obtain ⟨-, -, h⟩ := whenHost_next h
    split at h
    · cases h
    · cases h
      exact .inr rfl
  | readResponse ws =>
    obtain ⟨-, -, h⟩ := whenTarget_next h
    rw [acceptWords_eq] at h
    cases h
    exact .inr rfl
  | offerOutboundWord | acceptInboundWord w =>
    obtain ⟨-, -, h⟩ := whenTarget_next h
    cases h
    exact .inr rfl
  | channelStep r v w =>
    obtain ⟨-, -, h⟩ := whenTarget_next h
    cases h
    exact .inr (channelStep_fault r v w s)
  | targetTurn r v w =>
    obtain ⟨-, -, rfl⟩ := execTargetTurn_next h
    exact .inr (channelStep_fault r v w s)

/-- Settles O34: of the two cases of `exec_raises_or` only a raised fault puts a code into an empty fault field. -/
theorem faultDiscardsTheStep : Obligations.FaultDiscardsTheStep := by
  intro i c s t hs h ht
  obtain ⟨hc, e, -, rfl⟩ | hsame := exec_raises_or h
  · cases ht
    exact ⟨rfl, hc⟩
  · cases hs.symm.trans (hsame.symm.trans ht)

/-- Settles O35: what is raised is not that code, and a state that is left holds no code to keep. -/
theorem illegalCommandIsNeverTheBlocks : Obligations.IllegalCommandIsNeverTheBlocks := by
  intro i s t h ht
  obtain ⟨-, e, he, rfl⟩ | hsame := exec_raises_or h
  · exact he (Option.some.inj ht)
  · cases (fault_none_of_exec_next h).symm.trans (hsame.symm.trans ht)

/-! ## Every form of a request raises what the encoder raises (R87, R88, R201 to R206, log 9) -/

/-- The instructions that in the host context run `encode_read(a, b)`; the READ row has `b = 4·n` (log 9). -/
inductive EncodesRead (a : Nat) : Nat → Instr → Prop where
  | readReq (b : Nat) : EncodesRead a b (.readReq a b)
  | read (b k : Nat) : EncodesRead a b (.read a b k)
  | wireRead (n : Nat) : EncodesRead a (4 * n) (.wireRead a n)

/-- The instructions that in the host context run `encode_write(a, b, p)`; the WRITE row has `b = 4·n` (log 9). -/
inductive EncodesWrite (a : Nat) (p : List Word32) : Nat → Instr → Prop where
  | write (b : Nat) : EncodesWrite a p b (.write a b p)
  | writeChunk (b : Nat) : EncodesWrite a p b (.writeChunk a b p)
  | wireWrite (n : Nat) : EncodesWrite a p (4 * n) (.wireWrite a n p)

/-- `read` too is no more than the fault of its first line (R128, R210). -/
theorem EncodesRead.exec_raises {a b : Nat} {i : Instr} {e : FaultCode} {s : State} (hi : EncodesRead a b i)
    (hs : s.HostReady) (h : encodeRead a b s = .next (s.faultedBy e)) : exec i s = .next (s.faultedBy e) := by
  cases hi with
  | readReq => exact (exec_readReq hs a b).trans h
  | read _ k => exact execRead_faulted hs h (Option.some_ne_none e)
  | wireRead n => exact (exec_wireRead_host hs a n).trans h

theorem EncodesWrite.exec_eq {a b : Nat} {p : List Word32} {i : Instr} {s : State} (hi : EncodesWrite a p b i)
    (hs : s.HostReady) : exec i s = encodeWrite a b p s := by
  cases hi with
  | write => exact exec_write hs a b p
  | writeChunk => exact exec_writeChunk hs a b p
  | wireWrite n => exact exec_wireWrite_host hs a n p

/-- The instructions that in the host context request a transfer of `b` bytes at `a`. -/
def RequestsTransfer (a b : Nat) (p : List Word32) (i : Instr) : Prop := EncodesRead a b i ∨ EncodesWrite a p b i

/-- The check shared by both encoders comes first, so all forms raise what it finds (R209). -/
theorem RequestsTransfer.exec_check_error {a b : Nat} {p : List Word32} {i : Instr} {e : FaultCode} {s : State}
    (hi : RequestsTransfer a b p i) (hs : s.HostReady) (h : checkTransfer s.cfg a b = .error e) :
    exec i s = .next (s.faultedBy e) := by
  obtain hread | hwrite := hi
  · exact hread.exec_raises hs (encodeRead_check_error h)
  · exact (hwrite.exec_eq hs).trans (encodeWrite_check_error h)

/-- The host operations that request a transfer. -/
theorem requestsTransfer_of_mem_bytes {a b k : Nat} {p : List Word32} {i : Instr}
    (hi : i ∈ [Instr.readReq a b, .read a b k, .write a b p, .writeChunk a b p]) : RequestsTransfer a b p i := by
  simp only [List.mem_cons, List.not_mem_nil, or_false] at hi
  obtain rfl | rfl | rfl | rfl := hi
  · exact .inl (.readReq b)
  · exact .inl (.read b k)
  · exact .inr (.write b)
  · exact .inr (.writeChunk b)

/-- The wire rows that request a transfer of whole words. -/
theorem requestsTransfer_of_mem_wire {a n : Nat} {p : List Word32} {i : Instr}
    (hi : i ∈ [Instr.wireRead a n, .wireWrite a n p]) : RequestsTransfer a (4 * n) p i := by
  simp only [List.mem_cons, List.not_mem_nil, or_false] at hi
  obtain rfl | rfl := hi
  · exact .inl (.wireRead n)
  · exact .inr (.wireWrite n)

/-- Both together: all forms that request a transfer of `n` words. -/
theorem requestsTransfer_of_mem_words {a n k : Nat} {p : List Word32} {i : Instr}
    (hi : i ∈ [Instr.readReq a (4 * n), .read a (4 * n) k, .write a (4 * n) p, .writeChunk a (4 * n) p,
      .wireRead a n, .wireWrite a n p]) : RequestsTransfer a (4 * n) p i :=
  (List.mem_append (s := [_, _, _, _]).1 hi).elim requestsTransfer_of_mem_bytes requestsTransfer_of_mem_wire

/-- Settles O4: the address check fails whatever the byte count is, that of the row's words included. -/
theorem wideAddressFaults : Obligations.WideAddressFaults := by
  intro a b n k p s hs ha i hi
  obtain ⟨m, hm⟩ : ∃ m, RequestsTransfer a m p i := by
    simp only [List.mem_cons, List.not_mem_nil, or_false] at hi
    obtain rfl | rfl | rfl | rfl | rfl | rfl := hi
    · exact ⟨b, .inl (.readReq b)⟩
    · exact ⟨b, .inl (.read b k)⟩
    · exact ⟨4 * n, .inl (.wireRead n)⟩
    · exact ⟨b, .inr (.write b)⟩
    · exact ⟨b, .inr (.writeChunk b)⟩
    · exact ⟨4 * n, .inr (.wireWrite n)⟩
  exact hm.exec_check_error hs (checkTransfer_wide ha m)

/-- A byte count that `checkLen` turns away faults the drain, and every request at an address in range (R209). -/
theorem exec_checkLen_error {b : Nat} {e : FaultCode} {s : State} (hs : s.HostReady)
    (h : checkLen s.cfg b = .error e) :
    (∀ k, exec (.readResp b k) s = .next (s.faultedBy e)) ∧
    ∀ a p i, a < s.cfg.addrBound → RequestsTransfer a b p i → exec i s = .next (s.faultedBy e) :=
  ⟨fun k => (exec_readResp hs b k).trans (readResult_check_error h),
    fun _ _ _ ha hi => hi.exec_check_error hs ((checkTransfer_narrow ha b).trans h)⟩

/-- Settles O5: the first test of `checkLen`. -/
theorem oddByteCountFaults : Obligations.OddByteCountFaults := by
  intro a b k p s hs hodd
  obtain ⟨hdrain, hrequest⟩ := exec_checkLen_error hs (checkLen_odd hodd s.cfg)
  exact ⟨hdrain k, fun ha i hi => hrequest a p i ha (requestsTransfer_of_mem_bytes hi)⟩

/-- Settles O6: the second test of `checkLen`; the rows of 0 words are requests of 0 bytes. -/
theorem zeroByteCountFaults : Obligations.ZeroByteCountFaults := by
  intro a k p s hs
  obtain ⟨hdrain, hrequest⟩ := exec_checkLen_error hs (checkLen_zero s.cfg)
  exact ⟨hdrain k, fun ha i hi => hrequest a p i ha (requestsTransfer_of_mem_words (n := 0) hi)⟩

/-- Settles O7: the third test of `checkLen`. -/
theorem overlongCountFaults : Obligations.OverlongCountFaults := by
  intro a n k p s hs hlong
  obtain ⟨hdrain, hrequest⟩ := exec_checkLen_error hs (checkLen_overlong hlong)
  exact ⟨hdrain k, fun ha i hi => hrequest a p i ha (requestsTransfer_of_mem_words hi)⟩

/-- Settles O8: the three forms are `encode_write`, which compares the payload once the checks have passed. -/
theorem payloadLengthFaults : Obligations.PayloadLengthFaults := by
  intro a n p s hs ha h1 h2 hp i hi
  have hform : EncodesWrite a p (4 * n) i := by
    simp only [List.mem_cons, List.not_mem_nil, or_false] at hi
    obtain rfl | rfl | rfl := hi
    · exact .write (4 * n)
    · exact .writeChunk (4 * n)
    · exact .wireWrite n
  exact (hform.exec_eq hs).trans (encodeWrite_mismatch ha h1 h2 hp)

/-- Settles O9: the three forms are `encode_read`, or end where its fault ends it. -/
theorem secondReadFaults : Obligations.SecondReadFaults := by
  intro a n k s hs ha h1 h2 ho i hi
  have hform : EncodesRead a (4 * n) i := by
    simp only [List.mem_cons, List.not_mem_nil, or_false] at hi
    obtain rfl | rfl | rfl := hi
    · exact .readReq (4 * n)
    · exact .read (4 * n) k
    · exact .wireRead n
  exact hform.exec_raises hs (encodeRead_overlap ha h1 h2 ho)

/-- Settles O10: `read_resp` compares its count with the outstanding read once the length checks have passed. -/
theorem unmatchedDrainFaults : Obligations.UnmatchedDrainFaults :=
  fun n k _ hs h1 h2 ho => (exec_readResp hs (4 * n) k).trans (readResult_mismatch h1 h2 ho)

end Sys2Proof.Machine
